-- ==== Sys2Proof/Word.lean ====
section
/-! DEFINITION. The two words of the encoder block: a column byte and an 8×8 matrix carried as 64 port bits. -/

namespace Sys2Proof

/-- The source's `uint8`: a column, a command byte, a data byte (`00_scope.md` R7). -/
abbrev Byte := BitVec 8

/-- An 8×8 bit matrix as its port vector `M` with `M[8x + y] = m[x][y]` (`00_scope.md` R8). -/
abbrev Matrix8x8 := BitVec 64

end Sys2Proof
end

