-- ==== Sys2Proof/Config.lean ====
section
/-! DEFINITION. What an implementation fixes (`00_scope.md` R5) and the two free values of the model.
The parameters are plain data that State carries, so a claim over all states is a claim over all parameters. -/

namespace Sys2Proof

/-- The open parameters of `00_scope.md` R5, arguments of the model. -/
structure Params where
  /-- `NMAX`, the largest `chipCount` the implementation accepts (D4). -/
  nmax : Nat
  /-- `OFFW`, the width of the signed framebuffer offset port (D3). -/
  offw : Nat
  /-- `SHW`, the width of the signed shift ports `dx`, `dy` (D3). -/
  shw : Nat
  /-- `RUNMAX`, the longest column run one FBWR carries (D24). -/
  runMax : Nat
  /-- `CMD_NOOP`, the command byte of the no-op pair (D5). -/
  cmdNoop : Byte
  /-- `COLCMD(0..7)`, the command bytes of the eight digit/column registers (D6). -/
  colCmds : Vector Byte 8
  /-- `CMD_INTENSITY`, used by the pseudo-operation BRIGHT (D7). -/
  cmdIntensity : Byte
  /-- `CMD_SHUTDOWN`, used by the pseudo-operation POWER (D7). -/
  cmdShutdown : Byte
  deriving DecidableEq, Repr

/-- The parameters of the machine at reset.
PRESUMED, unsafe: the four command codes are the defaults of R5, general knowledge and not in the source
(log entries 1 and 3). DESIGN CHOICE, unsafe: the four bounds (log entry 2). -/
def Config.params : Params where
  nmax := 65535
  offw := 32
  shw := 32
  runMax := 524296
  cmdNoop := 0x00
  colCmds := #v[0x01, 0x02, 0x03, 0x04, 0x05, 0x06, 0x07, 0x08]
  cmdIntensity := 0x0A
  cmdShutdown := 0x0C

/-- Byte `k` of the chain's shift register right after reset, counted from the far end: unknown
(`42_chain_encoder.md` R120, U7 "any value"), so it has no body (log entry 11, safe). -/
opaque Config.chainByteAtReset : Nat → Byte

/-- The value of a chip's register (chip, how often the chip's registers have become unknown, command byte) that no
completed transaction has written: "any value until written" (U7), so it has no body (log entry 12, safe). -/
opaque Config.chipRegister : Nat → Nat → Byte → Byte

/-- The number of chips physically in the chain at reset. DESIGN CHOICE, unsafe: the spec gives none
(log entry 10). -/
def Config.chainLength : Nat := 1

end Sys2Proof
end

