-- ==== Sys2Proof/Syntax.lean ====
section
/-! DEFINITION. The operations of the command port, the wire pairs of a receiving chip, and the two forms in which
they are presented. -/

namespace Sys2Proof

/-- Rotation and direction (`30_encoding.md` R62). -/
inductive Rotation where
  | none | cw90 | ccw90 | half
  deriving DecidableEq, Repr

/-- Flip axis (`30_encoding.md` R62); `reserved` is the code `11` (R68). -/
inductive Axis where
  | none | horizontal | vertical | reserved
  deriving DecidableEq, Repr

/-- One constructor per row of `spec/opcode_table.json`. The first sixteen are the `op_sel` codes of
`30_encoding.md` R60; the last ten are the classes of a pair `{c, d}` that a receiving chip latches
(R64, R73), with the physical index of that chip. -/
inductive Instr where
  | configure (n : Nat) (rot : Rotation) (rev : Bool)
  | bcast (cmd data : Byte)
  | ucast (cmd data : Byte) (idx : Nat)
  | mrot (m : Matrix8x8) (dir : Rotation)
  | mflip (m : Matrix8x8) (axis : Axis)
  | mshift (m : Matrix8x8) (dx dy : Int)
  | minv (m : Matrix8x8)
  | fbclr
  | fbwr (off : Int) (run : List Byte)
  | fbshl
  | fbrdw
  | flush
  | reserved0000
  | reserved1101
  | reserved1110
  | reserved1111
  | wireNoop (chip : Nat) (d : Byte)
  | wireCol0 (chip : Nat) (d : Byte)
  | wireCol1 (chip : Nat) (d : Byte)
  | wireCol2 (chip : Nat) (d : Byte)
  | wireCol3 (chip : Nat) (d : Byte)
  | wireCol4 (chip : Nat) (d : Byte)
  | wireCol5 (chip : Nat) (d : Byte)
  | wireCol6 (chip : Nat) (d : Byte)
  | wireCol7 (chip : Nat) (d : Byte)
  | wireOther (chip : Nat) (c d : Byte)
  deriving DecidableEq, Repr

/-- The value on every port of the command port at one presentation (`30_encoding.md` R60, R61). The ports whose
width is a parameter carry their raw bits as a number. -/
structure Ports where
  opSel : BitVec 4
  n : Nat := 0
  rot : BitVec 2 := 0
  rev : BitVec 1 := 0
  cmd : Byte := 0
  data : Byte := 0
  idx : Nat := 0
  m : Matrix8x8 := 0
  dir : BitVec 2 := 0
  axis : BitVec 2 := 0
  dx : Nat := 0
  dy : Nat := 0
  off : Nat := 0
  len : Nat := 0
  /-- The burst of FBWR, first column first. -/
  run : List Byte := []
  deriving DecidableEq, Repr

/-- An encoded instruction: the ports of one presentation (level 1), or the 16-bit pair `{c, d}` that chip `chip`
latches (level 2). -/
inductive Encoded where
  | command (ports : Ports)
  | pair (chip : Nat) (word : BitVec 16)
  deriving DecidableEq, Repr

/-- What waits to be executed: an operation presented on the command port, or the latching of the pair that chip
`chip` holds in its shift register (log entries 7 and 8). -/
inductive Presentation where
  | command (ports : Ports)
  | latched (chip : Nat)
  deriving DecidableEq, Repr

/-- Why a presentation is no operation (log entry 16, safe). -/
inductive DecodeError where
  /-- The burst of FBWR carries fewer columns than its `len` port says (`30_encoding.md` R61). -/
  | incompleteBurst (len got : Nat)
  deriving DecidableEq, Repr

end Sys2Proof
end

