-- ==== Sys2Proof/Machine/Operands.lean ====
section
/-! DEFINITION. Every operand form: the widths of the ports, zero and sign extension, the clamp of the FBWR offset,
the class of a command byte and the data byte as it goes on the wire. -/

namespace Sys2Proof

/-- `ceil(log2 n)`, 0 for `n ≤ 1`. -/
def clog2 (n : Nat) : Nat := if n ≤ 1 then 0 else Nat.log2 (n - 1) + 1

/-- `FBCAP = (NMAX + 2) × 8` (`00_scope.md` R5). -/
def Params.fbCap (p : Params) : Nat := (p.nmax + 2) * 8

/-- `IDXW = max(1, ceil(log2(NMAX + 1)))` (`00_scope.md` R5). -/
def Params.idxw (p : Params) : Nat := max 1 (clog2 (p.nmax + 1))

/-- `COLCMD(j)`, the command byte of the register of column `j`. -/
def Params.colCmd (p : Params) (j : Fin 8) : Byte := p.colCmds[j]

/-- `isColumnCmd(cmd)` (`42_chain_encoder.md` R118). -/
def Params.isColumnCmd (p : Params) (cmd : Byte) : Bool := p.colCmds.toList.contains cmd

/-- `wire(cmd, data)`, the data byte as it goes on the bus (`42_chain_encoder.md` R111). -/
def Params.wire (p : Params) (cmd data : Byte) : Byte := if p.isColumnCmd cmd then ~~~data else data

/-- Zero extension of the raw bits of a `w`-bit port (`00_scope.md` R10). -/
def zext (w raw : Nat) : Nat := raw % 2 ^ w

/-- Sign extension of the raw bits of a `w`-bit two's complement port (`00_scope.md` R10). -/
def sext (w raw : Nat) : Int := (BitVec.ofNat w raw).toInt

/-- The raw bits that carry `x` on a `w`-bit two's complement port. -/
def rawOfInt (w : Nat) (x : Int) : Nat := (BitVec.ofInt w x).toNat

/-- `n` is the value of some `w`-bit unsigned port. -/
def fitsUnsigned (w n : Nat) : Bool := decide (n < 2 ^ w)

/-- `x` is the value of some `w`-bit two's complement port. -/
def fitsSigned (w : Nat) (x : Int) : Bool := decide (-(2 ^ w : Int) ≤ 2 * x) && decide (2 * x < (2 ^ w : Int))

/-- `clamp(v, lo, hi)` (`00_scope.md` R10). -/
def clamp (v lo hi : Int) : Int := if v < lo then lo else if hi < v then hi else v

/-- The start index of an FBWR run, `clamp(off, -8, fbLen - 9) + 8` (`30_encoding.md` R67, `20_memory.md` R45). -/
def runStart (fbLen : Nat) (off : Int) : Nat := (clamp off (-8) ((fbLen : Int) - 9) + 8).toNat

/-- `sliceToChipIndex(s, N, reversed)` (`44_display_flush.md` R150, conflict C2). -/
def sliceToChipIndex (slice n : Nat) (reversed : Bool) : Nat := if reversed then slice else n - 1 - slice

/-- The constraints the spec puts on the parameters: `NMAX ≥ 1`, the lower bounds of `OFFW` and `SHW` (`00_scope.md`
R5), and R6: the eight column commands differ pairwise and the no-op command is none of them. DESIGN CHOICE, safe:
`cmdIntensity` and `cmdShutdown` are not constrained, so a legal `cmdIntensity` may be a column command although R156
takes it as none, and BRIGHT's level is then complemented on the wire (log entry 19). -/
abbrev Params.Legal (p : Params) : Prop :=
  1 ≤ p.nmax ∧ clog2 p.fbCap + 2 ≤ p.offw ∧ 5 ≤ p.shw ∧ p.colCmds.toList.Nodup ∧ p.cmdNoop ∉ p.colCmds.toList

end Sys2Proof
end

