-- ==== Sys2Proof/WellFormed.lean ====
section
/-! DEFINITION. Which instructions an implementation's ports can carry, and which pair belongs to which wire class. -/

namespace Sys2Proof

/-- `i` is an instruction that some presentation of an implementation with parameters `p` stands for
(`30_encoding.md` R61 for the port widths, R64 and R73 for the classes of a wire pair). -/
def Instr.wf (p : Params) : Instr → Bool
  | .configure n _ _ => fitsUnsigned p.idxw n
  | .bcast _ _ => true
  | .ucast _ _ idx => fitsUnsigned p.idxw idx
  | .mrot _ _ => true
  | .mflip _ _ => true
  | .mshift _ dx dy => fitsSigned p.shw dx && fitsSigned p.shw dy
  | .minv _ => true
  | .fbclr => true
  | .fbwr off run => fitsSigned p.offw off && decide (run.length ≤ p.runMax)
  | .fbshl => true
  | .fbrdw => true
  | .flush => true
  | .reserved0000 => true
  | .reserved1101 => true
  | .reserved1110 => true
  | .reserved1111 => true
  | .wireNoop _ _ => true
  | .wireCol0 _ _ => true
  | .wireCol1 _ _ => true
  | .wireCol2 _ _ => true
  | .wireCol3 _ _ => true
  | .wireCol4 _ _ => true
  | .wireCol5 _ _ => true
  | .wireCol6 _ _ => true
  | .wireCol7 _ _ => true
  | .wireOther _ c _ => !(c == p.cmdNoop) && !p.isColumnCmd c

/-- The ports can carry these values: each port its width, the burst as many columns as `len` says, `len` at most
`RUNMAX` (`30_encoding.md` R61, `00_scope.md` R5). -/
abbrev Ports.Fits (p : Params) (q : Ports) : Prop :=
  q.n < 2 ^ p.idxw ∧ q.idx < 2 ^ p.idxw ∧ q.dx < 2 ^ p.shw ∧ q.dy < 2 ^ p.shw ∧ q.off < 2 ^ p.offw ∧
    q.len ≤ p.runMax ∧ q.run.length = q.len

/-- An encoded instruction that can be presented: a pair always, ports when they fit. -/
abbrev Encoded.Fits (p : Params) : Encoded → Prop
  | .command q => q.Fits p
  | .pair _ _ => True

end Sys2Proof
end

