-- ==== Sys2Proof/Decode.lean ====
section
/-! DEFINITION. The decoder of both encoding levels, total on every presentation and every pair, and the encoder,
written from the tables of `30_encoding.md` (R60, R61, R62) and from `spec/opcode_table.json`. -/

namespace Sys2Proof

/-- The rotation a 2-bit code names (`30_encoding.md` R62). -/
def decodeRotation (code : BitVec 2) : Rotation :=
  match code.toNat with
  | 0 => .none
  | 1 => .cw90
  | 2 => .ccw90
  | _ => .half

/-- The 2-bit code of a rotation (`30_encoding.md` R62). -/
def encodeRotation : Rotation → BitVec 2
  | .none => 0b00
  | .cw90 => 0b01
  | .ccw90 => 0b10
  | .half => 0b11

/-- The axis a 2-bit code names, `11` being reserved (`30_encoding.md` R62, R68). -/
def decodeAxis (code : BitVec 2) : Axis :=
  match code.toNat with
  | 0 => .none
  | 1 => .horizontal
  | 2 => .vertical
  | _ => .reserved

/-- The 2-bit code of an axis (`30_encoding.md` R62). -/
def encodeAxis : Axis → BitVec 2
  | .none => 0b00
  | .horizontal => 0b01
  | .vertical => 0b10
  | .reserved => 0b11

/-- The operation FBWR of a presentation: `len` columns of the burst (`30_encoding.md` R61). A presentation that does
not carry its run whole is rejected by name; a `len` above `RUNMAX` is no ground to reject one (log entry 16). -/
def decodeRun (p : Params) (q : Ports) : Except DecodeError Instr :=
  if q.run.length < q.len then .error (.incompleteBurst q.len q.run.length)
  else .ok (.fbwr (sext p.offw q.off) (q.run.take q.len))

/-- Level 1: the operation a presentation names (`30_encoding.md` R60). Each operation reads its own ports only (R61);
`n` and `idx` are zero-extended, `off`, `dx` and `dy` sign-extended (R67). The last case is `op_sel = 1111`. -/
def decodeCommand (p : Params) (q : Ports) : Except DecodeError Instr :=
  match q.opSel.toNat with
  | 0 => .ok .reserved0000
  | 1 => .ok (.configure (zext p.idxw q.n) (decodeRotation q.rot) (q.rev == 1))
  | 2 => .ok (.bcast q.cmd q.data)
  | 3 => .ok (.ucast q.cmd q.data (zext p.idxw q.idx))
  | 4 => .ok (.mrot q.m (decodeRotation q.dir))
  | 5 => .ok (.mflip q.m (decodeAxis q.axis))
  | 6 => .ok (.mshift q.m (sext p.shw q.dx) (sext p.shw q.dy))
  | 7 => .ok (.minv q.m)
  | 8 => .ok .fbclr
  | 9 => decodeRun p q
  | 10 => .ok .fbshl
  | 11 => .ok .fbrdw
  | 12 => .ok .flush
  | 13 => .ok .reserved1101
  | 14 => .ok .reserved1110
  | _ => .ok .reserved1111

/-- The command byte of a pair `{c, d}`, bits 15:8 (`30_encoding.md` R64). -/
def pairCommand (word : BitVec 16) : Byte := word.extractLsb' 8 8

/-- The data byte of a pair `{c, d}`, bits 7:0 (`30_encoding.md` R64). -/
def pairData (word : BitVec 16) : Byte := word.extractLsb' 0 8

/-- The pair `{c, d}` (`30_encoding.md` R64). -/
def mkPair (c d : Byte) : BitVec 16 := c ++ d

/-- Level 2: the class of the pair that chip `chip` latches (`30_encoding.md` R73): the no-op command first, then the
column commands in ascending order, any other command last. -/
def decodePair (p : Params) (chip : Nat) (word : BitVec 16) : Instr :=
  let c := pairCommand word
  let d := pairData word
  if c = p.cmdNoop then .wireNoop chip d
  else if c = p.colCmd 0 then .wireCol0 chip d
  else if c = p.colCmd 1 then .wireCol1 chip d
  else if c = p.colCmd 2 then .wireCol2 chip d
  else if c = p.colCmd 3 then .wireCol3 chip d
  else if c = p.colCmd 4 then .wireCol4 chip d
  else if c = p.colCmd 5 then .wireCol5 chip d
  else if c = p.colCmd 6 then .wireCol6 chip d
  else if c = p.colCmd 7 then .wireCol7 chip d
  else .wireOther chip c d

/-- The instruction an encoded form stands for, or the name of why it stands for none. -/
def decode (p : Params) : Encoded → Except DecodeError Instr
  | .command q => decodeCommand p q
  | .pair chip word => .ok (decodePair p chip word)

/-- The ports that present an operation, every port the operation does not read at 0 (`30_encoding.md` R60, R61), or the
pair that a wire class stands for (R64). -/
def encode (p : Params) : Instr → Encoded
  | .configure n rot rev =>
      .command { opSel := 0b0001, n := n, rot := encodeRotation rot, rev := BitVec.ofBool rev }
  | .bcast cmd data => .command { opSel := 0b0010, cmd := cmd, data := data }
  | .ucast cmd data idx => .command { opSel := 0b0011, cmd := cmd, data := data, idx := idx }
  | .mrot m dir => .command { opSel := 0b0100, m := m, dir := encodeRotation dir }
  | .mflip m axis => .command { opSel := 0b0101, m := m, axis := encodeAxis axis }
  | .mshift m dx dy => .command { opSel := 0b0110, m := m, dx := rawOfInt p.shw dx, dy := rawOfInt p.shw dy }
  | .minv m => .command { opSel := 0b0111, m := m }
  | .fbclr => .command { opSel := 0b1000 }
  | .fbwr off run => .command { opSel := 0b1001, off := rawOfInt p.offw off, len := run.length, run := run }
  | .fbshl => .command { opSel := 0b1010 }
  | .fbrdw => .command { opSel := 0b1011 }
  | .flush => .command { opSel := 0b1100 }
  | .reserved0000 => .command { opSel := 0b0000 }
  | .reserved1101 => .command { opSel := 0b1101 }
  | .reserved1110 => .command { opSel := 0b1110 }
  | .reserved1111 => .command { opSel := 0b1111 }
  | .wireNoop chip d => .pair chip (mkPair p.cmdNoop d)
  | .wireCol0 chip d => .pair chip (mkPair (p.colCmd 0) d)
  | .wireCol1 chip d => .pair chip (mkPair (p.colCmd 1) d)
  | .wireCol2 chip d => .pair chip (mkPair (p.colCmd 2) d)
  | .wireCol3 chip d => .pair chip (mkPair (p.colCmd 3) d)
  | .wireCol4 chip d => .pair chip (mkPair (p.colCmd 4) d)
  | .wireCol5 chip d => .pair chip (mkPair (p.colCmd 5) d)
  | .wireCol6 chip d => .pair chip (mkPair (p.colCmd 6) d)
  | .wireCol7 chip d => .pair chip (mkPair (p.colCmd 7) d)
  | .wireOther chip c d => .pair chip (mkPair c d)

/-- An instruction whose bits are `w` as `spec/opcode_table.json` numbers them: a row of one byte is a presentation with
`op_sel` in bits 3:0 and every operand port at 0, a longer row is a wire pair with `c` in bits 15:8, given to chip 0
(log entry 17). -/
def Encoded.ofTableWord (nbits w : Nat) : Encoded :=
  if nbits ≤ 8 then .command { opSel := BitVec.ofNat 4 w } else .pair 0 (BitVec.ofNat 16 w)

/-- The instruction the decoder reads from a word of the opcode table, under the parameters of reset. -/
def decodeTableWord (nbits w : Nat) : Option Instr := (decode Config.params (Encoded.ofTableWord nbits w)).toOption

end Sys2Proof
end

