-- ==== Sys2Proof/Machine/State.lean ====
section
/-! DEFINITION. The state of the encoder block (`10_state.md` R20), its outputs, the chain of chips behind its bus
(`42_chain_encoder.md` R120), the host's pending presentations, and why a step can stop. -/

namespace Sys2Proof.Machine

/-- Sparse bytes by address, addresses strictly rising. -/
abbrev Memory := List Host.Cell

/-- The last level the block drove on the latch line (`10_state.md` R28). -/
inductive LatchLevel where
  | unknown | low | high
  deriving DecidableEq, Repr

/-- One event of the bus trace (`10_state.md` R30): `setLatch(high)` or `writeByte(v)`. -/
inductive BusEvent where
  | latch (high : Bool)
  | byte (v : Byte)
  deriving DecidableEq, Repr

/-- The status of a response (`60_exceptions.md` R180). -/
inductive Status where
  | ok | notConfigured | configurationError | illegalOp
  deriving DecidableEq, Repr

/-- The result port (`30_encoding.md` R63): `rm` of the matrix operations, `rw` of FBRDW. -/
inductive OpResult where
  | matrix (rm : Matrix8x8)
  | window (rw : List Byte)
  deriving DecidableEq, Repr

/-- The response that ends an operation (`30_encoding.md` R63): its status, its result where it has one, and the bus
events it issued. -/
structure Response where
  status : Status
  result : Option OpResult
  bus : List BusEvent
  deriving DecidableEq, Repr

/-- A chip's 256 registers by command byte (`42_chain_encoder.md` R120): those that a commit has written, in canonical
form, and how often they have all become unknown. A register that is not listed holds the free value
`Config.chipRegister` (log entry 12, safe). -/
structure RegFile where
  written : List Host.Cell
  /-- The model's own field: it tells one round of unknown values from the next. -/
  unknowns : Nat
  deriving DecidableEq, Repr

/-- One display chip (`42_chain_encoder.md` R120): its shift register, first and second byte of the pair it holds, and
its register file. -/
structure Chip where
  first : Byte
  second : Byte
  regs : RegFile
  deriving DecidableEq, Repr

/-- The whole state. The fields from `configured` to `latch` are the record of `10_state.md` R20; `trace` and `response`
are the block's outputs (R30, `30_encoding.md` R63), which no operation reads; `chain` is the environment
(`42_chain_encoder.md` R120), physical chip index 0 first; `inbox` holds the host's pending presentations, oldest first. -/
structure State where
  params : Params
  configured : Bool
  chipCount : Nat
  rotation : Rotation
  reversed : Bool
  fbLen : Nat
  /-- The columns of the framebuffer. An index below `fbLen` that is not listed reads `0x00`, the value of an appended
  column (`40_configure.md` R80, log entry 14); an index from `fbLen` on does not exist. -/
  fb : Memory
  latch : LatchLevel
  trace : List BusEvent
  response : Option Response
  chain : List Chip
  inbox : List Presentation
  deriving DecidableEq, Repr

/-- Why the machine stops. Both are safe: an address that the spec says does not exist. -/
inductive Fault where
  /-- FBSHL, FBRDW or FLUSH reads or writes column `index`, which is not below `fbLen` (`20_memory.md` R40); it cannot
  happen where invariant I2 of `10_state.md` R33 holds (log entry 15, safe). -/
  | noSuchColumn (index : Nat)
  /-- A wire pair is given to chip `chip`, which the chain does not have (`20_memory.md` R40, log entry 15, safe). -/
  | noSuchChip (chip : Nat)
  deriving DecidableEq, Repr

/-- Why a presentation has no meaning. -/
inductive Refusal where
  /-- An arm of `exec` that has no meaning yet (none is left); safe. -/
  | notModelled (mnemonic : String)
  /-- The decoder finds no operation in the presentation (log entry 16, safe). -/
  | undecodable (why : DecodeError)
  deriving DecidableEq, Repr

/-- The chips before any bus event: shift registers free (log entry 11), registers free (log entry 12), their number the
model's choice (log entry 10). -/
def Chip.atReset (i : Nat) : Chip where
  first := Config.chainByteAtReset (2 * i)
  second := Config.chainByteAtReset (2 * i + 1)
  regs := { written := [], unknowns := 0 }

/-- The machine before the first operation (`10_state.md` R32, `70_reset_and_hazards.md` R200). DESIGN CHOICE, unsafe:
`chipCount`, `rotation` and `reversed`, which the spec leaves unspecified and unreadable (log entry 4); no response yet
(log entry 5), an empty trace (log entry 6), nothing presented (log entry 7). -/
def State.reset : State where
  params := Config.params
  configured := false
  chipCount := 0
  rotation := .none
  reversed := false
  fbLen := 0
  fb := []
  latch := .unknown
  trace := []
  response := none
  chain := (List.range Config.chainLength).map Chip.atReset
  inbox := []

end Sys2Proof.Machine
end

