-- ==== Sys2Proof/Machine/Flags.lean ====
section
/-! DEFINITION. The block has no status flags and no condition codes (`10_state.md` R34). What stands in their place is
the status port of a response: its codes and the checks that decide it. -/

namespace Sys2Proof.Machine

/-- The 2-bit code on the status port (`30_encoding.md` R62, `60_exceptions.md` R180). -/
def Status.code : Status → BitVec 2
  | .ok => 0b00
  | .notConfigured => 0b01
  | .configurationError => 0b10
  | .illegalOp => 0b11

/-- CONFIGURE rejects the count `n` (`40_configure.md` R81, `60_exceptions.md` R182). -/
def badChipCount (p : Params) (n : Nat) : Bool := decide (n < 1) || decide (p.nmax < n)

/-- The instruction is a presentation on the command port, which ends with a response (`30_encoding.md` R63); the others
are wire pairs, which the chips never answer (`20_memory.md` R40). -/
def isCommand : Instr → Bool
  | .configure _ _ _ => true
  | .bcast _ _ => true
  | .ucast _ _ _ => true
  | .mrot _ _ => true
  | .mflip _ _ => true
  | .mshift _ _ _ => true
  | .minv _ => true
  | .fbclr => true
  | .fbwr _ _ => true
  | .fbshl => true
  | .fbrdw => true
  | .flush => true
  | .reserved0000 => true
  | .reserved1101 => true
  | .reserved1110 => true
  | .reserved1111 => true
  | .wireNoop _ _ => false
  | .wireCol0 _ _ => false
  | .wireCol1 _ _ => false
  | .wireCol2 _ _ => false
  | .wireCol3 _ _ => false
  | .wireCol4 _ _ => false
  | .wireCol5 _ _ => false
  | .wireCol6 _ _ => false
  | .wireCol7 _ _ => false
  | .wireOther _ _ _ => false

end Sys2Proof.Machine
end

