-- ==== Sys2Proof/Machine/Memory.lean ====
section
/-! DEFINITION. Sparse memories: cells by address, the framebuffer's memory in its one canonical form, and the
framebuffer's reads and writes of one column (`20_memory.md` R40, R45). -/

namespace Sys2Proof.Machine

/-- The byte listed at `k`. -/
def cellAt : List Host.Cell → Nat → Option Byte
  | [], _ => none
  | (a, v) :: cs, k => if a = k then some v else cellAt cs k

/-- The cells without the one at `k`. -/
def cellErase (cs : List Host.Cell) (k : Nat) : List Host.Cell := cs.filter fun c => c.1 != k

/-- The cells with `(k, v)` before the first one of a higher address. -/
def cellInsert (k : Nat) (v : Byte) : List Host.Cell → List Host.Cell
  | [] => [(k, v)]
  | (a, w) :: cs => if k < a then (k, v) :: (a, w) :: cs else (a, w) :: cellInsert k v cs

/-- The cells with `v` at `k`, whatever was there. -/
def cellPut (cs : List Host.Cell) (k : Nat) (v : Byte) : List Host.Cell := cellInsert k v (cellErase cs k)

/-- Addresses strictly rising: the canonical form of a memory whose unlisted addresses have no value. -/
abbrev cellsRising (cs : List Host.Cell) : Prop := cs.Pairwise fun a b => a.1 < b.1

/-- The canonical form of the framebuffer's memory: addresses strictly rising and no listed `0x00`, which is what an
unlisted address reads as. -/
abbrev Memory.wf (m : Memory) : Prop := cellsRising m ∧ ∀ c ∈ m, c.2 ≠ 0

/-- The canonical form of a chip's register file: addresses strictly rising, each a command byte. -/
abbrev RegFile.wf (r : RegFile) : Prop := cellsRising r.written ∧ ∀ c ∈ r.written, c.1 < 256

/-- The canonical form of the chips' register files. -/
abbrev chainWf (chain : List Chip) : Prop := ∀ chip ∈ chain, chip.regs.wf

/-- The byte at `a`; an unlisted address reads `0x00` (log entry 14). -/
def Memory.get (m : Memory) (a : Nat) : Byte := (cellAt m a).getD 0

/-- The memory with `v` at `a`, in canonical form: `0x00` is not listed. -/
def Memory.set (m : Memory) (a : Nat) (v : Byte) : Memory := if v = 0 then cellErase m a else cellPut m a v

/-- Every byte one address down; the byte at address 0 is lost. -/
def Memory.down (m : Memory) : Memory := m.filterMap fun c => if c.1 = 0 then none else some (c.1 - 1, c.2)

/-- The memory without the bytes from address `n` on. -/
def Memory.below (m : Memory) (n : Nat) : Memory := m.filter fun c => decide (c.1 < n)

/-- A run of bytes written at consecutive addresses from `start`, those at `bound` or above dropped
(`43_framebuffer.md` R131). -/
def Memory.setRun (m : Memory) (bound start : Nat) : List Byte → Memory
  | [] => m
  | b :: bs => (if start < bound then m.set start b else m).setRun bound (start + 1) bs

/-- Column `i` of the framebuffer; no column exists from `fbLen` on. -/
def State.column (s : State) (i : Nat) : Option Byte := if i < s.fbLen then some (s.fb.get i) else none

/-- `MemRead(i, 1)` (`00_scope.md` R10). -/
def State.memRead (s : State) (i : Nat) : Except Fault Byte :=
  match s.column i with
  | some v => .ok v
  | none => .error (.noSuchColumn i)

/-- `count` columns from `start` on, in ascending order. -/
def State.readColumns (s : State) (start : Nat) : Nat → Except Fault (List Byte)
  | 0 => .ok []
  | count + 1 =>
    match s.memRead start with
    | .error f => .error f
    | .ok v =>
      match s.readColumns (start + 1) count with
      | .error f => .error f
      | .ok vs => .ok (v :: vs)

end Sys2Proof.Machine
end

