-- ==== Sys2Proof/Machine/Ops.lean ====
section
/-! DEFINITION. The shared operations: ending an operation with its response (normal, or with a non-OK status: the place
of an exception), the two bus primitives with the chain's reaction, one bus transaction, and the fetch of the next
presentation. -/

namespace Sys2Proof.Machine

/-- How a step ends. -/
abbrev Result := Host.Outcome State Fault Refusal

/-! ## Ending an operation -/

/-- `raise <Status>` (`00_scope.md` R10, `60_exceptions.md` R181): the operation ends at once with a non-OK status, no
state change, no bus event, no result. There is no trap entry and no return from one (R188, R189). -/
def State.raise (s : State) (status : Status) : Result :=
  .next { s with response := some { status := status, result := none, bus := [] } }

/-- `return (OK, result)`: the response of an operation that began in `before` (`30_encoding.md` R63). -/
def State.finish (s before : State) (result : Option OpResult) : Result :=
  .next { s with
    response := some { status := .ok, result := result, bus := s.trace.drop before.trace.length } }

/-- The check every operation on the configuration or the framebuffer makes first (`60_exceptions.md` R183). -/
def State.whenConfigured (s : State) (run : State → Result) : Result :=
  if s.configured then run s else s.raise .notConfigured

/-! ## The chain of chips (environment) -/

/-- The value of register `c` in the register file of chip `i`: the byte written last, or the free value where nothing
has written it (log entry 12). -/
def RegFile.read (r : RegFile) (i : Nat) (c : Byte) : Byte :=
  (cellAt r.written c.toNat).getD (Config.chipRegister i r.unknowns c)

/-- The value of register `c` of chip `i`, `none` where the chain does not have the chip. -/
def State.chipReg (s : State) (i : Nat) (c : Byte) : Option Byte :=
  match s.chain[i]? with
  | some chip => some (chip.regs.read i c)
  | none => none

/-- The pair in the shift register of chip `i` (`42_chain_encoder.md` R120), `none` where the chain does not have the
chip. -/
def State.chipPair (s : State) (i : Nat) : Option (Byte × Byte) :=
  s.chain[i]?.map fun chip => (chip.first, chip.second)

/-- Whether the cell in column `j`, row `y` of chip `i` is lit, where the chain has the chip
(`42_chain_encoder.md` R123). -/
def State.lit (s : State) (i : Nat) (j : Fin 8) (y : Nat) : Option Bool :=
  (s.chipReg i (s.params.colCmd j)).map fun wireByte => (~~~wireByte).getLsbD y

/-- `reg[c] <- d` in one chip. -/
def Chip.setReg (chip : Chip) (c d : Byte) : Chip := 
  { chip with regs := { chip.regs with written := cellPut chip.regs.written c.toNat d } }

/-- A chip commits the pair it holds (`42_chain_encoder.md` R122): the no-op command changes nothing, any other command
byte names the register that receives the data byte. -/
def Chip.commit (noop : Byte) (chip : Chip) : Chip :=
  if chip.first = noop then chip else chip.setReg chip.first chip.second

/-- A chip that has committed an unknown pair: every register holds a fresh free value (`42_chain_encoder.md` R122, log
entry 13). -/
def Chip.forget (chip : Chip) : Chip := 
  { chip with regs := { written := [], unknowns := chip.regs.unknowns + 1 } }

/-- One byte enters the chain at its near end and every byte moves one place towards chip 0; the answer holds the byte
that leaves the far end (`42_chain_encoder.md` R121). -/
def shiftIn : List Chip → Byte → List Chip × Byte
  | [], v => ([], v)
  | chip :: near, v =>
    let shifted := shiftIn near v
    ({ chip with first := chip.second, second := shifted.2 } :: shifted.1, chip.first)

/-- The chain's reaction to `setLatch(high)` (`42_chain_encoder.md` R122): only a rising edge commits. From an unknown
level, which no operation of the block meets, the commit is of unknown pairs (log entry 13). -/
def latchChain (noop : Byte) (before : LatchLevel) (high : Bool) (chain : List Chip) : List Chip :=
  match high, before with
  | false, _ => chain
  | true, .low => chain.map (Chip.commit noop)
  | true, .high => chain
  | true, .unknown => chain.map Chip.forget

/-! ## The bus -/

/-- `setLatch(high)` (`00_scope.md` R10): the event, the new level, and the chain's reaction. -/
def State.setLatch (s : State) (high : Bool) : State :=
  { s with
    trace := s.trace ++ [.latch high]
    latch := if high then .high else .low
    chain := latchChain s.params.cmdNoop s.latch high s.chain }

/-- `writeByte(v)` (`00_scope.md` R10): the event, and the chain's shift. -/
def State.writeByte (s : State) (v : Byte) : State :=
  { s with trace := s.trace ++ [.byte v], chain := (shiftIn s.chain v).1 }

/-- A pair on the bus: command byte, then data byte (`20_memory.md` R43). -/
def State.writePair (s : State) (pair : Byte × Byte) : State := (s.writeByte pair.1).writeByte pair.2

/-- One transaction: latch low, the pairs in slot order, latch high (`42_chain_encoder.md` R116, `30_encoding.md` R65). -/
def State.transaction (s : State) (pairs : List (Byte × Byte)) : State :=
  (pairs.foldl State.writePair (s.setLatch false)).setLatch true

/-- The bus events of one transaction (`30_encoding.md` R65). -/
def frame (pairs : List (Byte × Byte)) : List BusEvent :=
  .latch false :: (pairs.flatMap fun pair => [.byte pair.1, .byte pair.2]) ++ [.latch true]

/-! ## Fetching -/

/-- What the step finds to do. -/
inductive Fetched where
  /-- Nothing is presented: the block is idle (`10_state.md` R22). -/
  | idle
  | run (i : Instr) (rest : State)
  | fault (f : Fault)
  | refused (r : Refusal)
  deriving DecidableEq, Repr

/-- The oldest presentation, decoded, and the state without it. A latched pair is read from the shift register of the
chip that latches it, command byte first (`42_chain_encoder.md` R120, log entry 8). -/
def State.fetch (s : State) : Fetched :=
  match s.inbox with
  | [] => .idle
  | .command q :: rest =>
    match decode s.params (.command q) with
    | .ok i => .run i { s with inbox := rest }
    | .error e => .refused (.undecodable e)
  | .latched chip :: rest =>
    match s.chain[chip]? with
    | none => .fault (.noSuchChip chip)
    | some c =>
      match decode s.params (.pair chip (mkPair c.first c.second)) with
      | .ok i => .run i { s with inbox := rest }
      | .error e => .refused (.undecodable e)

/-- The chip with the pair `word` in its shift register, command byte first. -/
def Chip.hold (word : BitVec 16) (chip : Chip) : Chip :=
  { chip with first := pairCommand word, second := pairData word }

/-- The state in which `e` is the oldest presentation: the ports on the command port, or the pair in the shift register
of the chip that is to latch it (log entries 7 and 8). -/
def State.present (s : State) : Encoded → State
  | .command q => { s with inbox := .command q :: s.inbox }
  | .pair chip word => { s with inbox := .latched chip :: s.inbox, chain := s.chain.modify chip (Chip.hold word) }

/-- The state with at least one chip in its chain. -/
def State.withChip (s : State) : State :=
  match s.chain with
  | [] => { s with chain := [{ first := 0, second := 0, regs := { written := [], unknowns := 0 } }] }
  | _ :: _ => s

end Sys2Proof.Machine
end

