-- ==== Sys2Proof/Machine/Configure.lean ====
section
/-! DEFINITION. The meaning of CONFIGURE (`40_configure.md`). -/

namespace Sys2Proof.Machine

/-- Zero columns appended at the high-index end until `need` columns exist; a buffer that is long enough stays as it is
(`40_configure.md` R80). -/
def State.growTo (s : State) (need : Nat) : State :=
  if s.fbLen < need then { s with fbLen := need, fb := s.fb.below s.fbLen } else s

/-- CONFIGURE (`40_configure.md` R80, R81). -/
def execConfigure (n : Nat) (rot : Rotation) (rev : Bool) (s : State) : Result :=
  if badChipCount s.params n then s.raise .configurationError
  else
    State.finish
      (State.growTo { s with chipCount := n, rotation := rot, reversed := rev, configured := true } ((n + 2) * 8)) s none

end Sys2Proof.Machine
end

