-- ==== Sys2Proof/Machine/Encoder.lean ====
section
/-! DEFINITION. The chain command encoder: the meanings of BCAST and UCAST (`42_chain_encoder.md`). -/

namespace Sys2Proof.Machine

/-- The pairs of a broadcast: the same pair in every one of the `n` slots (`42_chain_encoder.md` R110). -/
def broadcastPairs (p : Params) (n : Nat) (cmd data : Byte) : List (Byte × Byte) :=
  List.replicate n (cmd, p.wire cmd data)

/-- The filler pair (`42_chain_encoder.md` R113). -/
def fillerPair (p : Params) : Byte × Byte := (p.cmdNoop, 0x00)

/-- The pairs of a unicast: the pair in slot `idx`, the filler in every other of the `n` slots
(`42_chain_encoder.md` R112). -/
def unicastPairs (p : Params) (n : Nat) (cmd data : Byte) (idx : Nat) : List (Byte × Byte) :=
  (List.range n).map fun t => if t = idx then (cmd, p.wire cmd data) else fillerPair p

/-- A unicast without its response: no transaction at all when the index is out of range (`42_chain_encoder.md` R112,
R114). -/
def State.unicast (s : State) (cmd data : Byte) (idx : Nat) : State :=
  if s.chipCount ≤ idx then s else s.transaction (unicastPairs s.params s.chipCount cmd data idx)

/-- BCAST (`42_chain_encoder.md` R110). -/
def execBcast (cmd data : Byte) (s : State) : Result :=
  s.whenConfigured fun s => (s.transaction (broadcastPairs s.params s.chipCount cmd data)).finish s none

/-- UCAST (`42_chain_encoder.md` R112, R114). -/
def execUcast (cmd data : Byte) (idx : Nat) (s : State) : Result :=
  s.whenConfigured fun s => (s.unicast cmd data idx).finish s none

end Sys2Proof.Machine
end

