-- ==== Sys2Proof/Machine/Matrix.lean ====
section
/-! DEFINITION. The 8×8 bit matrix (`00_scope.md` R8): cells, packing into column bytes, and the transforms of
`41_matrix_transform.md`. `x` is the column number and `y` the row number (R90, conflict C4). -/

namespace Sys2Proof.Machine

/-- The number whose bits `i < w` are `f i`. -/
def bitsBelow (f : Nat → Bool) : Nat → Nat
  | 0 => 0
  | w + 1 => bitsBelow f w + (f w).toNat * 2 ^ w

/-- The cell of column `x` and row `y`, bit `8x + y` of the port vector (`00_scope.md` R8). -/
def cell (m : Matrix8x8) (x y : Nat) : Bool := m.getLsbD (8 * x + y)

/-- The matrix whose cell of column `x` and row `y` is `f x y`. -/
def ofCells (f : Nat → Nat → Bool) : Matrix8x8 := BitVec.ofNat 64 (bitsBelow (fun i => f (i / 8) (i % 8)) 64)

/-- The column byte of column `x`: bits `8x+7 : 8x` (`00_scope.md` R8). -/
def columnByte (m : Matrix8x8) (x : Nat) : Byte := m.extractLsb' (8 * x) 8

/-- `cols(M)`, the eight column bytes, column 0 first (`00_scope.md` R8). -/
def cols (m : Matrix8x8) : List Byte := (List.range 8).map (columnByte m)

/-- `mat(c0, …, c7)`, the matrix of eight column bytes (`00_scope.md` R8). -/
def mat (cs : List Byte) : Matrix8x8 := ofCells fun x y => (cs.getD x 0).getLsbD y

/-- `rotate(m, dir)`: the cell of the result in column `a`, row `b` (`41_matrix_transform.md` R91 to R95). -/
def rotate (m : Matrix8x8) : Rotation → Matrix8x8
  | .none => m
  | .cw90 => ofCells fun a b => cell m b (7 - a)
  | .ccw90 => ofCells fun a b => cell m (7 - b) a
  | .half => ofCells fun a b => cell m (7 - a) (7 - b)

/-- `flip(m, horizontal)`: the x dimension reversed (`41_matrix_transform.md` R97). -/
def flipHorizontal (m : Matrix8x8) : Matrix8x8 := ofCells fun a b => cell m (7 - a) b

/-- `flip(m, vertical)`: the y dimension reversed (`41_matrix_transform.md` R98). -/
def flipVertical (m : Matrix8x8) : Matrix8x8 := ofCells fun a b => cell m a (7 - b)

/-- The cell of a matrix at integer coordinates, 0 outside the grid. -/
def cellOrZero (m : Matrix8x8) (x y : Int) : Bool :=
  if 0 ≤ x ∧ x ≤ 7 ∧ 0 ≤ y ∧ y ≤ 7 then cell m x.toNat y.toNat else false

/-- The matrix translated by `(dx, dy)`, cells that leave the grid dropped, vacated cells 0
(`41_matrix_transform.md` R100). -/
def shiftMatrix (m : Matrix8x8) (dx dy : Int) : Matrix8x8 :=
  ofCells fun a b => cellOrZero m ((a : Int) - dx) ((b : Int) - dy)

end Sys2Proof.Machine
end

