-- ==== Sys2Proof/Machine/Flush.lean ====
section
/-! DEFINITION. The display flush path: the meaning of FLUSH (`44_display_flush.md` R150 to R153). -/

namespace Sys2Proof.Machine

/-- Column `j` to the register of column `j` of chip `chip`, for the eight columns in ascending order
(`44_display_flush.md` R151, R153). -/
def State.sendColumns (s : State) (chip : Nat) (cs : List Byte) : State :=
  (List.finRange 8).foldl (fun s j => s.unicast (s.params.colCmd j) (cs.getD j.val 0) chip) s

/-- One slice: its eight columns through the rotation stage to its chip (`44_display_flush.md` R151, R152). -/
def State.flushSlice (s : State) (slice : Nat) : Except Fault State :=
  match s.readColumns (8 + 8 * slice) 8 with
  | .error f => .error f
  | .ok cs =>
    .ok (s.sendColumns (sliceToChipIndex slice s.chipCount s.reversed) (cols (rotate (mat cs) s.rotation)))

/-- `count` slices from `slice` on, in ascending order (`44_display_flush.md` R153). -/
def State.flushSlices (s : State) (slice : Nat) : Nat → Except Fault State
  | 0 => .ok s
  | count + 1 =>
    match s.flushSlice slice with
    | .error f => .error f
    | .ok s' => s'.flushSlices (slice + 1) count

/-- FLUSH (`44_display_flush.md` R151). -/
def execFlush (s : State) : Result :=
  s.whenConfigured fun s =>
    match s.flushSlices 0 s.chipCount with
    | .ok s' => s'.finish s none
    | .error f => .fault f

end Sys2Proof.Machine
end

