-- ==== Sys2Proof/Machine/Framebuffer.lean ====
section
/-! DEFINITION. The meanings of the framebuffer operations FBCLR, FBWR, FBSHL, FBRDW (`43_framebuffer.md`). -/

namespace Sys2Proof.Machine

/-- FBCLR: every column becomes `0x00` (`43_framebuffer.md` R130). -/
def execFbclr (s : State) : Result :=
  s.whenConfigured fun s => State.finish { s with fb := [] } s none

/-- FBWR: the run from the clamped start index on, its tail dropped at the end of the buffer
(`43_framebuffer.md` R131). -/
def execFbwr (off : Int) (run : List Byte) (s : State) : Result :=
  s.whenConfigured fun s =>
    State.finish { s with fb := s.fb.setRun s.fbLen (runStart s.fbLen off) run } s none

/-- FBSHL: every column one index down, the last column `0x00` (`43_framebuffer.md` R133). An empty buffer has no last
column to write (log entry 15). -/
def execFbshl (s : State) : Result :=
  s.whenConfigured fun s =>
    if s.fbLen = 0 then .fault (.noSuchColumn 0)
    else State.finish { s with fb := s.fb.down.set (s.fbLen - 1) 0 } s none

/-- The visible window, `fb[8 .. 8N+7]` (`20_memory.md` R42). -/
def State.readWindow (s : State) : Except Fault (List Byte) := s.readColumns 8 (8 * s.chipCount)

/-- FBRDW (`43_framebuffer.md` R134). -/
def execFbrdw (s : State) : Result :=
  s.whenConfigured fun s =>
    match s.readWindow with
    | .ok rw => s.finish s (some (.window rw))
    | .error f => .fault f

end Sys2Proof.Machine
end

