-- ==== Sys2Proof/Machine/Reserved.lean ====
section
/-! DEFINITION. The reserved codes of the command port (`30_encoding.md` R68, `60_exceptions.md` R184): each raises
IllegalOp, whatever the configuration (R187). -/

namespace Sys2Proof.Machine

/-- `op_sel = 0000` (`30_encoding.md` R68). -/
def execReserved0000 (s : State) : Result := s.raise .illegalOp

/-- `op_sel = 1101` (`30_encoding.md` R68). -/
def execReserved1101 (s : State) : Result := s.raise .illegalOp

/-- `op_sel = 1110` (`30_encoding.md` R68). -/
def execReserved1110 (s : State) : Result := s.raise .illegalOp

/-- `op_sel = 1111` (`30_encoding.md` R68). -/
def execReserved1111 (s : State) : Result := s.raise .illegalOp

end Sys2Proof.Machine
end

