-- ==== Sys2Proof/Machine/Transform.lean ====
section
/-! DEFINITION. The meanings of the matrix transform stages MROT, MFLIP, MSHIFT, MINV (`41_matrix_transform.md`). They
read no state and may run before CONFIGURE (R102). -/

namespace Sys2Proof.Machine

/-- The response of a matrix operation: status OK and the result matrix (`30_encoding.md` R63). -/
def State.returnMatrix (s : State) (rm : Matrix8x8) : Result := s.finish s (some (.matrix rm))

/-- MROT (`41_matrix_transform.md` R91). -/
def execMrot (m : Matrix8x8) (dir : Rotation) (s : State) : Result := s.returnMatrix (rotate m dir)

/-- MFLIP (`41_matrix_transform.md` R97 to R99); the reserved axis raises IllegalOp. -/
def execMflip (m : Matrix8x8) (axis : Axis) (s : State) : Result :=
  match axis with
  | .none => s.returnMatrix m
  | .horizontal => s.returnMatrix (flipHorizontal m)
  | .vertical => s.returnMatrix (flipVertical m)
  | .reserved => s.raise .illegalOp

/-- MSHIFT (`41_matrix_transform.md` R100). -/
def execMshift (m : Matrix8x8) (dx dy : Int) (s : State) : Result := s.returnMatrix (shiftMatrix m dx dy)

/-- MINV (`41_matrix_transform.md` R101). -/
def execMinv (m : Matrix8x8) (s : State) : Result := s.returnMatrix (~~~m)

end Sys2Proof.Machine
end

