-- ==== Sys2Proof/Machine/WirePair.lean ====
section
/-! DEFINITION. What one receiving chip does with the pair it latches, by the class of its command byte
(`30_encoding.md` R73, `42_chain_encoder.md` R122). The chips have no return path: no response, no bus event, and no
field of the block changes (log entry 8). -/

namespace Sys2Proof.Machine

/-- Chip `i` changed by `f`; a chip that the chain does not have is a fault (log entry 15). -/
def State.onChip (s : State) (i : Nat) (f : Chip → Chip) : Result :=
  match s.chain[i]? with
  | none => .fault (.noSuchChip i)
  | some chip => .next { s with chain := s.chain.set i (f chip) }

/-- Chip `i` receives `d` in the register of column `j` (`30_encoding.md` R73). -/
def State.receiveColumn (s : State) (i : Nat) (j : Fin 8) (d : Byte) : Result :=
  s.onChip i fun chip => chip.setReg (s.params.colCmd j) d

/-- WIRE.NOOP: no register changes, whatever the data byte (`30_encoding.md` R73). -/
def execWireNoop (chip : Nat) (_d : Byte) (s : State) : Result := s.onChip chip id

/-- WIRE.COL0 (`30_encoding.md` R73). -/
def execWireCol0 (chip : Nat) (d : Byte) (s : State) : Result := s.receiveColumn chip 0 d

/-- WIRE.COL1 (`30_encoding.md` R73). -/
def execWireCol1 (chip : Nat) (d : Byte) (s : State) : Result := s.receiveColumn chip 1 d

/-- WIRE.COL2 (`30_encoding.md` R73). -/
def execWireCol2 (chip : Nat) (d : Byte) (s : State) : Result := s.receiveColumn chip 2 d

/-- WIRE.COL3 (`30_encoding.md` R73). -/
def execWireCol3 (chip : Nat) (d : Byte) (s : State) : Result := s.receiveColumn chip 3 d

/-- WIRE.COL4 (`30_encoding.md` R73). -/
def execWireCol4 (chip : Nat) (d : Byte) (s : State) : Result := s.receiveColumn chip 4 d

/-- WIRE.COL5 (`30_encoding.md` R73). -/
def execWireCol5 (chip : Nat) (d : Byte) (s : State) : Result := s.receiveColumn chip 5 d

/-- WIRE.COL6 (`30_encoding.md` R73). -/
def execWireCol6 (chip : Nat) (d : Byte) (s : State) : Result := s.receiveColumn chip 6 d

/-- WIRE.COL7 (`30_encoding.md` R73). -/
def execWireCol7 (chip : Nat) (d : Byte) (s : State) : Result := s.receiveColumn chip 7 d

/-- WIRE.OTHER: the register numbered `c` receives `d` as sent (`30_encoding.md` R73). -/
def execWireOther (chip : Nat) (c d : Byte) (s : State) : Result := s.onChip chip fun ch => ch.setReg c d

end Sys2Proof.Machine
end

