-- ==== Sys2Proof/Machine/Dispatch.lean ====
section
/-! DEFINITION. One arm per instruction. -/

namespace Sys2Proof.Machine

/-- The meaning of every instruction. -/
def exec (i : Instr) (s : State) : Host.Outcome State Fault Refusal :=
  match i with
  | .configure n rot rev => Sys2Proof.Machine.execConfigure n rot rev s
  | .bcast cmd data => Sys2Proof.Machine.execBcast cmd data s
  | .ucast cmd data idx => Sys2Proof.Machine.execUcast cmd data idx s
  | .mrot m dir => Sys2Proof.Machine.execMrot m dir s
  | .mflip m axis => Sys2Proof.Machine.execMflip m axis s
  | .mshift m dx dy => Sys2Proof.Machine.execMshift m dx dy s
  | .minv m => Sys2Proof.Machine.execMinv m s
  | .fbclr => Sys2Proof.Machine.execFbclr s
  | .fbwr off run => Sys2Proof.Machine.execFbwr off run s
  | .fbshl => Sys2Proof.Machine.execFbshl s
  | .fbrdw => Sys2Proof.Machine.execFbrdw s
  | .flush => Sys2Proof.Machine.execFlush s
  | .reserved0000 => Sys2Proof.Machine.execReserved0000 s
  | .reserved1101 => Sys2Proof.Machine.execReserved1101 s
  | .reserved1110 => Sys2Proof.Machine.execReserved1110 s
  | .reserved1111 => Sys2Proof.Machine.execReserved1111 s
  | .wireNoop chip d => Sys2Proof.Machine.execWireNoop chip d s
  | .wireCol0 chip d => Sys2Proof.Machine.execWireCol0 chip d s
  | .wireCol1 chip d => Sys2Proof.Machine.execWireCol1 chip d s
  | .wireCol2 chip d => Sys2Proof.Machine.execWireCol2 chip d s
  | .wireCol3 chip d => Sys2Proof.Machine.execWireCol3 chip d s
  | .wireCol4 chip d => Sys2Proof.Machine.execWireCol4 chip d s
  | .wireCol5 chip d => Sys2Proof.Machine.execWireCol5 chip d s
  | .wireCol6 chip d => Sys2Proof.Machine.execWireCol6 chip d s
  | .wireCol7 chip d => Sys2Proof.Machine.execWireCol7 chip d s
  | .wireOther chip c d => Sys2Proof.Machine.execWireOther chip c d s

end Sys2Proof.Machine
end

