-- ==== Sys2Proof/Machine/Step.lean ====
section
/-! DEFINITION. One step: the oldest presentation of the host, as a whole (`00_scope.md` R12, `20_memory.md` R51). -/

namespace Sys2Proof.Machine

/-- One atomic step. With nothing presented the block is idle and the state stays (`10_state.md` R22). -/
def step (s : State) : Host.Outcome State Fault Refusal :=
  match s.fetch with
  | .idle => .next s
  | .run i rest => exec i rest
  | .fault f => .fault f
  | .refused r => .refused r

/-- The state whose next step runs the instruction of the opcode table's word `w` (log entries 7, 8 and 17). -/
def State.withFetchWord (s : State) (nbits w : Nat) : State :=
  if nbits ≤ 8 then s.present (Encoded.ofTableWord nbits w) else s.withChip.present (Encoded.ofTableWord nbits w)

end Sys2Proof.Machine
end

