-- ==== Sys2Proof/Machine/HostSequence.lean ====
section
/-! DEFINITION. The host sequences of `45_host_sequences.md`: text placement and scrolling as lists of the block's
operations and of delays. They are the surrounding software (R170), not the block; the glyph table stays outside
(`00_scope.md` R4). -/

namespace Sys2Proof.Machine

/-- A glyph: the character it stands for and its columns (`45_host_sequences.md` R171). -/
structure Glyph where
  key : Char
  columns : List Byte
  deriving DecidableEq, Repr

/-- `length = columns.count`, the width and the advance of a glyph: no spacing column (`45_host_sequences.md` R171). -/
def Glyph.length (g : Glyph) : Nat := g.columns.length

/-- What `layoutText` returns (`45_host_sequences.md` R171). -/
structure TextLayout where
  glyphSequence : List Glyph
  perGlyphAdvance : List Nat
  totalAdvance : Nat
  deriving DecidableEq, Repr

/-- What the host does next: an operation of the block, or `delay(ms)`, which the block never issues (R170). -/
inductive HostAction where
  | op (i : Instr)
  | delay (ms : Nat)
  deriving DecidableEq, Repr

/-- The host-level failure of text layout; never a status of the block (`60_exceptions.md` R185). -/
inductive HostError where
  | allGlyphsUnmatched
  deriving DecidableEq, Repr

/-- The advance of a glyph sequence: the sum of the widths, no spacing (`45_host_sequences.md` R171). -/
def totalAdvance (glyphs : List Glyph) : Nat := (glyphs.map Glyph.length).sum

/-- The layout of a glyph sequence: the advance of each glyph and of all (`45_host_sequences.md` R171). -/
def layoutGlyphs (glyphs : List Glyph) : TextLayout where
  glyphSequence := glyphs
  perGlyphAdvance := glyphs.map Glyph.length
  totalAdvance := totalAdvance glyphs

/-- `layoutText(text)`: characters without a glyph are skipped; it fails only when no character has one
(`45_host_sequences.md` R171). The empty text counts as such a text (log entry 21). -/
def layoutText (lookup : Char → Option Glyph) (text : List Char) : Except HostError TextLayout :=
  match text.filterMap lookup with
  | [] => .error .allGlyphsUnmatched
  | g :: gs => .ok (layoutGlyphs (g :: gs))

/-- The steps of a scroll: the next glyph at offset `8n` when the countdown is 0, then FBSHL, FLUSH and a delay; the
countdown falls after the step (`45_host_sequences.md` R172, R177). -/
def scrollSteps (n stepMs : Nat) : Nat → List Glyph → Nat → List HostAction
  | 0, _, _ => []
  | k + 1, g :: gs, 0 =>
      [.op (.fbwr (8 * n : Nat) g.columns), .op .fbshl, .op .flush, .delay stepMs]
        ++ scrollSteps n stepMs k gs (g.length - 1)
  | k + 1, gs, countdown =>
      [.op .fbshl, .op .flush, .delay stepMs] ++ scrollSteps n stepMs k gs (countdown - 1)

/-- `scrollText` on a chain of `n` chips (`45_host_sequences.md` R172). -/
def scrollText (n : Nat) (glyphs : List Glyph) (stepMs endMs : Nat) : Except HostError (List HostAction) :=
  match glyphs with
  | [] => .error .allGlyphsUnmatched
  | g :: gs =>
    .ok (scrollSteps n stepMs (totalAdvance (g :: gs) + 8 * n) (g :: gs) 0 ++ [.delay endMs])

/-- The glyphs of a static text from offset `at` on, while the offset is inside the window; a glyph that straddles the
boundary is written whole (`45_host_sequences.md` R173). -/
def placeGlyphs (n : Nat) : List Glyph → Int → List HostAction
  | [], _ => []
  | g :: gs, at_ =>
    if at_ < 8 * n then .op (.fbwr at_ g.columns) :: placeGlyphs n gs (at_ + g.length) else []

/-- `displayText` on a chain of `n` chips and a framebuffer of `fbLen` columns (`45_host_sequences.md` R173). -/
def displayText (n fbLen : Nat) (glyphs : List Glyph) (offset : Int) (clearFirst : Bool) : List HostAction :=
  (if clearFirst then [.op .fbclr] else [])
    ++ placeGlyphs n glyphs (clamp offset (-8) ((fbLen : Int) - 9)) ++ [.op .flush]

/-- `displayTextRightAligned` (`45_host_sequences.md` R174). -/
def displayTextRightAligned (n fbLen : Nat) (glyphs : List Glyph) (clearFirst : Bool) : List HostAction :=
  displayText n fbLen glyphs ((8 * n : Int) - totalAdvance glyphs) clearFirst

/-- The operations among a host's actions: what the block sees of them (`60_exceptions.md` R191). -/
def operationsOf (actions : List HostAction) : List Instr :=
  actions.filterMap fun
    | .op i => some i
    | .delay _ => none

end Sys2Proof.Machine
end

