-- ==== Sys2Proof/Machine/Pseudo.lean ====
section
/-! DEFINITION. The pseudo-operations of `44_display_flush.md` (R155 to R158): fixed sequences of BCAST and UCAST that the
host issues (`30_encoding.md` R72), and the run of a list of operations one after another. -/

namespace Sys2Proof.Machine

/-- The target of a pseudo-operation, `all | chipIndex` (`30_encoding.md` R71). -/
inductive Target where
  | all
  | one (idx : Nat)
  deriving DecidableEq, Repr

/-- The pseudo-operations of `30_encoding.md` R71. `randomize` takes the matrix drawn (`44_display_flush.md` R158). -/
inductive PseudoOp where
  | dispm (t : Target) (m : Matrix8x8)
  | bright (t : Target) (level : Nat)
  | power (t : Target) (on : Bool)
  | fill (t : Target)
  | clear (t : Target)
  | randomize (t : Target) (draw : Matrix8x8)
  deriving DecidableEq, Repr

/-- One command to a target: BCAST, or UCAST with the chip's index. -/
def commandTo (t : Target) (cmd data : Byte) : Instr :=
  match t with
  | .all => .bcast cmd data
  | .one idx => .ucast cmd data idx

/-- DISPM: the eight columns of `m` in ascending order, not rotated (`44_display_flush.md` R155). -/
def displayMatrix (p : Params) (t : Target) (m : Matrix8x8) : List Instr :=
  (List.finRange 8).map fun j => commandTo t (p.colCmd j) (columnByte m j)

/-- The operations a pseudo-operation stands for (`44_display_flush.md` R155 to R158). BRIGHT passes the low 8 bits of
its level unchecked (R156); the encoder complements them where `cmdIntensity` is a column command, which legality does
not rule out (log entry 19). The data bytes of POWER are general knowledge (log entry 3). -/
def PseudoOp.expand (p : Params) : PseudoOp → List Instr
  | .dispm t m => displayMatrix p t m
  | .bright t level => [commandTo t p.cmdIntensity (BitVec.ofNat 8 level)]
  | .power t on => [commandTo t p.cmdShutdown (if on then 0x01 else 0x00)]
  | .fill t => displayMatrix p t (BitVec.allOnes 64)
  | .clear t => displayMatrix p t 0
  | .randomize t draw => displayMatrix p t draw

/-- The operations of a list, each run on the state the one before left (`30_encoding.md` R72). -/
def runAll : List Instr → State → Result
  | [], s => .next s
  | i :: is, s =>
    match exec i s with
    | .next s' => runAll is s'
    | .fault f => .fault f
    | .refused r => .refused r

end Sys2Proof.Machine
end

