-- ==== Sys2Proof/Safety.lean ====
section
/-! DEFINITION. What claims are stated in: the invariant of the machine (`10_state.md` R33), the premise on the physical
chain (`42_chain_encoder.md` R125), and a safe step. -/

namespace Sys2Proof.Machine

/-- The invariants of `10_state.md` R33 (I1, I2, I4), with the constraints on the parameters (`00_scope.md` R5, R6) and
the canonical form of both sparse memories. -/
structure State.Inv (s : State) : Prop where
  /-- The parameters meet R5 and R6. -/
  legal : s.params.Legal
  /-- I1: a configured chip count is legal. -/
  count : s.configured = true → 1 ≤ s.chipCount ∧ s.chipCount ≤ s.params.nmax
  /-- I2: margins and window exist once configured. -/
  window : s.configured = true → (s.chipCount + 2) * 8 ≤ s.fbLen
  /-- I2: the length is a multiple of 8. -/
  whole : s.fbLen % 8 = 0
  /-- I2: the length stays within the capacity. -/
  capacity : s.fbLen ≤ s.params.fbCap
  /-- The framebuffer's memory is in canonical form. -/
  canonical : s.fb.wf
  /-- No byte is listed for a column that does not exist. -/
  inside : ∀ c ∈ s.fb, c.1 < s.fbLen
  /-- I4: between operations the latch is unknown or high. -/
  latch : s.latch ≠ .low
  /-- Every chip's register file is in canonical form, its addresses command bytes. -/
  registers : chainWf s.chain

/-- Premise P1 of `42_chain_encoder.md` R125: the physical chain has exactly `cfg.chipCount` chips. -/
def State.ChainMatches (s : State) : Prop := s.chain.length = s.chipCount

/-- The step completes: neither a fault nor a refusal. -/
def State.SafeStep (s : State) : Prop := ∃ t, step s = .next t

end Sys2Proof.Machine
end

