-- ==== Sys2Proof/Certificates/Slice0/Obligations.lean ====
section
/-! DEFINITION. The statements about the encoder block, for the provers. -/

open Sys2Proof Sys2Proof.Machine

/-! ## Encoding -/

/-- Decoding the encoding of a well-formed instruction gives it back, for every legal choice of the parameters
(`30_encoding.md` R60 to R62, R64; the codes are the spec's own, D2 and D3). -/
def Obligations.DecodeInvertsEncode : Prop :=
  ∀ (p : Params) (i : Instr), p.Legal → i.wf p = true → decode p (encode p i) = .ok i

/-- Every presentation the ports can carry is an operation, and a well-formed one: no code of the command port is left
without a meaning (`30_encoding.md` R60, R68). -/
def Obligations.FittingPortsDecodeToWellFormed : Prop :=
  ∀ (p : Params) (q : Ports), q.Fits p → ∃ i, decode p (.command q) = .ok i ∧ i.wf p = true ∧ isCommand i = true

/-- Every pair a chip can latch belongs to exactly one wire class: its class is well-formed and encodes back to the pair
(`30_encoding.md` R64, R73). -/
def Obligations.PairsHaveOneClass : Prop :=
  ∀ (p : Params) (chip : Nat) (word : BitVec 16),
    ∃ i, decode p (.pair chip word) = .ok i ∧ i.wf p = true ∧ isCommand i = false ∧ encode p i = .pair chip word

/-- An operation reads only the ports that R61 lists for it: two presentations of one operation that agree on those ports
decode alike, whatever stands on the others. -/
def Obligations.OperationReadsOnlyItsPorts : Prop :=
  ∀ (p : Params) (q q' : Ports), q.opSel = q'.opSel →
    (q.opSel = 0b0001 → q.n = q'.n ∧ q.rot = q'.rot ∧ q.rev = q'.rev) →
    (q.opSel = 0b0010 → q.cmd = q'.cmd ∧ q.data = q'.data) →
    (q.opSel = 0b0011 → q.cmd = q'.cmd ∧ q.data = q'.data ∧ q.idx = q'.idx) →
    (q.opSel = 0b0100 → q.m = q'.m ∧ q.dir = q'.dir) →
    (q.opSel = 0b0101 → q.m = q'.m ∧ q.axis = q'.axis) →
    (q.opSel = 0b0110 → q.m = q'.m ∧ q.dx = q'.dx ∧ q.dy = q'.dy) →
    (q.opSel = 0b0111 → q.m = q'.m) →
    (q.opSel = 0b1001 → q.off = q'.off ∧ q.len = q'.len ∧ q.run = q'.run) →
    decode p (.command q) = decode p (.command q')

/-- Words written out from the spec's tables decode to what they stand for (`30_encoding.md` R60, R62, R64). The command
codes of the pairs are the PRESUMED defaults (log entry 1); that `0xFFFFFFF8` is the offset -8 rests on the chosen width
32 of the offset port (log entry 2); the layout of a table word, and chip 0, are the model's choice (log entry 17). -/
def Obligations.SpecWordsDecode : Prop :=
  decode Config.params (.command { opSel := 0b0001, n := 2, rot := 0b01, rev := 1 }) = .ok (.configure 2 .cw90 true) ∧
  decode Config.params (.command { opSel := 0b0011, cmd := 0x01, data := 0x81, idx := 1 }) = .ok (.ucast 0x01 0x81 1) ∧
  decode Config.params (.command { opSel := 0b0101, m := 0x01, axis := 0b10 }) = .ok (.mflip 0x01 .vertical) ∧
  decode Config.params (.command { opSel := 0b1001, off := 0xFFFFFFF8, len := 2, run := [0xAA, 0xBB] }) =
    .ok (.fbwr (-8) [0xAA, 0xBB]) ∧
  decodeTableWord 8 0xC = some .flush ∧ decodeTableWord 8 0xE = some .reserved1110 ∧
  decodeTableWord 16 0x037E = some (.wireCol2 0 0x7E) ∧ decodeTableWord 16 0x0C01 = some (.wireOther 0 0x0C 0x01)

/-! ## The step -/

/-- A step runs the oldest presentation: the operation its ports name, or the class of the pair that the chip holds, on
the state without it. With nothing presented the state stays (`10_state.md` R22, `20_memory.md` R51; that the pending
presentations stand in a list is the model's choice, log entries 7 and 8). -/
def Obligations.StepRunsTheDecodedInstruction : Prop :=
  (∀ (s : State) (q : Ports) (rest : List Presentation) (i : Instr),
    s.inbox = .command q :: rest → decode s.params (.command q) = .ok i → step s = exec i { s with inbox := rest }) ∧
  (∀ (s : State) (chip : Nat) (c : Chip) (rest : List Presentation) (i : Instr),
    s.inbox = .latched chip :: rest → s.chain[chip]? = some c →
      decode s.params (.pair chip (mkPair c.first c.second)) = .ok i → step s = exec i { s with inbox := rest }) ∧
  (∀ s : State, s.inbox = [] → step s = .next s)

/-- An encoded well-formed instruction, once presented, is what the next step runs (`20_memory.md` R51; the inbox and the
pair presented in a chip's shift register are the model's choice, log entries 7 and 8). -/
def Obligations.PresentedInstructionRuns : Prop :=
  (∀ (s : State) (i : Instr) (q : Ports), s.params.Legal → i.wf s.params = true → encode s.params i = .command q →
    step (s.present (encode s.params i)) = exec i s) ∧
  (∀ (s : State) (i : Instr) (chip : Nat) (word : BitVec 16), s.params.Legal → i.wf s.params = true →
    encode s.params i = .pair chip word → chip < s.chain.length →
    step (s.present (encode s.params i)) = exec i { s with chain := s.chain.modify chip (Chip.hold word) })

/-! ## CONFIGURE -/

/-- CONFIGURE with a legal count writes the configuration, keeps every column, and appends zero columns up to
`(n + 2) × 8`; it sends nothing and changes nothing else (`40_configure.md` R80; zero columns, no shortening and the
silence of the bus are the spec's own choices, D11 and D12). -/
def Obligations.ConfigureWritesConfiguration : Prop :=
  ∀ (s : State) (n : Nat) (rot : Rotation) (rev : Bool), 1 ≤ n → n ≤ s.params.nmax →
    ∃ (len : Nat) (fb : Memory),
      exec (.configure n rot rev) s =
        .next { s with
          configured := true, chipCount := n, rotation := rot, reversed := rev, fbLen := len, fb := fb
          response := some { status := .ok, result := none, bus := [] } } ∧
      len = max s.fbLen ((n + 2) * 8) ∧
      (∀ i < s.fbLen, fb.get i = s.fb.get i) ∧ (∀ i, s.fbLen ≤ i → i < len → fb.get i = 0x00)

/-- CONFIGURE with `n = 0` or `n > NMAX` returns ConfigurationError and changes nothing (`40_configure.md` R81,
`60_exceptions.md` R182; the upper bound and the untouched state are the spec's own choices, D13). -/
def Obligations.ConfigureRejectsBadCount : Prop :=
  ∀ (s : State) (n : Nat) (rot : Rotation) (rev : Bool), n = 0 ∨ s.params.nmax < n →
    exec (.configure n rot rev) s =
      .next { s with response := some { status := .configurationError, result := none, bus := [] } }

/-- CONFIGURE twice in a row leaves the same state as once (`40_configure.md` R82 item 1). -/
def Obligations.ConfigureIsIdempotent : Prop :=
  ∀ (s t : State) (n : Nat) (rot : Rotation) (rev : Bool),
    exec (.configure n rot rev) s = .next t → exec (.configure n rot rev) t = .next t

/-! ## The chain command encoder -/

/-- The data byte on the wire is the complement under the eight column commands and the byte itself under every other,
in every slot of a BCAST and in the slot of a UCAST; the command byte is sent as it is (`42_chain_encoder.md` R111, with
R118 for the class). -/
def Obligations.ColumnDataIsComplementedOnWire : Prop :=
  ∀ (s : State) (cmd data sent : Byte), s.configured = true →
    ((∃ j : Fin 8, cmd = s.params.colCmd j) ∧ sent = data ^^^ 0xFF) ∨
      ((∀ j : Fin 8, cmd ≠ s.params.colCmd j) ∧ sent = data) →
    s.params.wire cmd data = sent ∧
    ∀ idx < s.chipCount, ∀ i ∈ [Instr.bcast cmd data, .ucast cmd data idx],
      ∃ t r, exec i s = .next t ∧ t.response = some r ∧
        r.bus[2 * idx + 1]? = some (.byte cmd) ∧ r.bus[2 * idx + 2]? = some (.byte sent)

/-- BCAST sends one transaction of N equal pairs, leaves the latch high, and changes nothing else in the block
(`42_chain_encoder.md` R110). What the chips do with it is BroadcastReachesEveryChip. -/
def Obligations.BcastSendsTheSamePairToEverySlot : Prop :=
  ∀ (s : State) (cmd data : Byte), s.configured = true →
    ∃ (bus : List BusEvent) (chain : List Chip),
      exec (.bcast cmd data) s =
        .next { s with
          latch := .high, trace := s.trace ++ bus, chain := chain
          response := some { status := .ok, result := none, bus := bus } } ∧
      bus = [.latch false] ++
        (List.replicate s.chipCount [BusEvent.byte cmd, BusEvent.byte (s.params.wire cmd data)]).flatten ++
        [.latch true] ∧
      bus.length = 2 * s.chipCount + 2 ∧ chain.length = s.chain.length

/-- UCAST in range sends one transaction whose slot `idx` carries the pair and whose other slots carry the filler
(`42_chain_encoder.md` R112, R113, R117; that slot t is chip t is the spec's own reading, D8). -/
def Obligations.UcastSendsThePairInItsSlot : Prop :=
  ∀ (s : State) (cmd data : Byte) (idx : Nat), s.configured = true → idx < s.chipCount →
    ∃ (bus : List BusEvent) (chain : List Chip),
      exec (.ucast cmd data idx) s =
        .next { s with
          latch := .high, trace := s.trace ++ bus, chain := chain
          response := some { status := .ok, result := none, bus := bus } } ∧
      bus.length = 2 * s.chipCount + 2 ∧ bus[0]? = some (.latch false) ∧
      bus[2 * s.chipCount + 1]? = some (.latch true) ∧
      (∀ t < s.chipCount,
        bus[2 * t + 1]? = some (.byte (if t = idx then cmd else s.params.cmdNoop)) ∧
        bus[2 * t + 2]? = some (.byte (if t = idx then s.params.wire cmd data else 0x00))) ∧
      chain.length = s.chain.length

/-- UCAST out of range is a silent no-op with status OK (`42_chain_encoder.md` R114; the index being unsigned is the
spec's own choice, D19). -/
def Obligations.UcastOutOfRangeDoesNothing : Prop :=
  ∀ (s : State) (cmd data : Byte) (idx : Nat), s.configured = true → s.chipCount ≤ idx →
    exec (.ucast cmd data idx) s =
      .next { s with response := some { status := .ok, result := none, bus := [] } }

/-- The chain is one shift register: after two bytes per chip, chip `i` holds bytes `2i` and `2i + 1`, whatever it held
before, and no register has changed (`42_chain_encoder.md` R121; that a chip holds one pair is the spec's own reading,
D30, and that the chain reacts at once is log entry 9). -/
def Obligations.ChainHoldsTheLastBytes : Prop :=
  ∀ (s : State) (bytes : List Byte), bytes.length = 2 * s.chain.length →
    ∀ (i : Nat) (before : Chip), s.chain[i]? = some before →
      ∃ after, (bytes.foldl State.writeByte s).chain[i]? = some after ∧
        bytes[2 * i]? = some after.first ∧ bytes[2 * i + 1]? = some after.second ∧ after.regs = before.regs

/-- A rising latch makes every chip commit its pair: the no-op command changes no register, any other command byte names
the register that receives the data byte. A falling latch changes nothing, and after a rise from an unknown level
every register holds a fresh free value. The pairs in the shift registers stay (`42_chain_encoder.md` R122; one pair per
chip is the spec's own reading, D30; the chain's reaction is log entry 9, the free values are log entries 12 and 13). -/
def Obligations.RisingLatchCommitsEveryPair : Prop :=
  ∀ s : State,
    (s.setLatch false).chain = s.chain ∧ (∀ i : Nat, (s.setLatch true).chipPair i = s.chipPair i) ∧
    (s.latch = .low → ∀ (i : Nat) (chip : Chip), s.chain[i]? = some chip → ∀ c : Byte,
      (s.setLatch true).chipReg i c =
        if chip.first ≠ s.params.cmdNoop ∧ c = chip.first then some chip.second else s.chipReg i c) ∧
    (s.latch = .unknown → ∀ (i : Nat) (chip : Chip), s.chain[i]? = some chip → ∀ c : Byte,
      (s.setLatch true).chipReg i c = some (Config.chipRegister i (chip.regs.unknowns + 1) c))

/-- After BCAST of a command other than the no-op, that register of every chip holds the wire byte and no other register
has changed (`42_chain_encoder.md` R124 item 1, under premise P1 of R125; one pair per chip is D30, the chain's reaction
log entry 9). -/
def Obligations.BroadcastReachesEveryChip : Prop :=
  ∀ (s : State) (cmd data : Byte), s.configured = true → s.ChainMatches → cmd ≠ s.params.cmdNoop →
    ∃ t, exec (.bcast cmd data) s = .next t ∧
      (∀ i < s.chipCount, t.chipReg i cmd = some (s.params.wire cmd data)) ∧
      (∀ (i : Nat) (c : Byte), c ≠ cmd → t.chipReg i c = s.chipReg i c)

/-- After UCAST only the addressed chip's register has changed; after an out-of-range UCAST, or a transaction of the
no-op command, none has (`42_chain_encoder.md` R124 items 2 and 3, under premise P1 of R125; slot t is chip t, D8; one
pair per chip is D30, the chain's reaction log entry 9). -/
def Obligations.UnicastReachesOneChip : Prop :=
  ∀ (s : State) (cmd data : Byte) (idx : Nat), s.configured = true → s.ChainMatches →
    (∃ t, exec (.ucast cmd data idx) s = .next t ∧
      (cmd ≠ s.params.cmdNoop → idx < s.chipCount → t.chipReg idx cmd = some (s.params.wire cmd data)) ∧
      (∀ (i : Nat) (c : Byte), cmd = s.params.cmdNoop ∨ s.chipCount ≤ idx ∨ i ≠ idx ∨ c ≠ cmd →
        t.chipReg i c = s.chipReg i c)) ∧
    (cmd = s.params.cmdNoop → ∃ t, exec (.bcast cmd data) s = .next t ∧
      ∀ (i : Nat) (c : Byte), t.chipReg i c = s.chipReg i c)

/-! ## The matrix transform stages -/

/-- MROT returns the rotated matrix, cell by cell, and changes nothing but the response (`41_matrix_transform.md` R91 to
R95, R102; x is the column number, the spec's reading D10). -/
def Obligations.MrotReturnsTheRotatedMatrix : Prop :=
  ∀ (s : State) (m : Matrix8x8) (dir : Rotation), ∃ rm : Matrix8x8,
    exec (.mrot m dir) s =
      .next { s with response := some { status := .ok, result := some (.matrix rm), bus := [] } } ∧
    (dir = .none → rm = m) ∧
    ∀ x < 8, ∀ y < 8,
      (dir = .cw90 → cell rm (7 - y) x = cell m x y) ∧ (dir = .ccw90 → cell rm y (7 - x) = cell m x y) ∧
      (dir = .half → cell rm (7 - x) (7 - y) = cell m x y)

/-- MFLIP returns the mirrored matrix (`41_matrix_transform.md` R97, R98, R99; the spec's reading D10 of x and y), and
IllegalOp with no result for the reserved axis (the spec's own choice, D20). -/
def Obligations.MflipReturnsTheMirroredMatrix : Prop :=
  ∀ (s : State) (m : Matrix8x8),
    exec (.mflip m .none) s =
      .next { s with response := some { status := .ok, result := some (.matrix m), bus := [] } } ∧
    (∃ rm, exec (.mflip m .horizontal) s =
        .next { s with response := some { status := .ok, result := some (.matrix rm), bus := [] } } ∧
      cols rm = (cols m).reverse ∧ ∀ x < 8, ∀ y < 8, cell rm x y = cell m (7 - x) y) ∧
    (∃ rm, exec (.mflip m .vertical) s =
        .next { s with response := some { status := .ok, result := some (.matrix rm), bus := [] } } ∧
      cols rm = (cols m).map BitVec.reverse ∧ ∀ x < 8, ∀ y < 8, cell rm x y = cell m x (7 - y)) ∧
    exec (.mflip m .reserved) s =
      .next { s with response := some { status := .illegalOp, result := none, bus := [] } }

/-- MSHIFT returns the translated matrix: a cell of the result is the cell it came from, or 0 when that lies outside the
grid (`41_matrix_transform.md` R100). -/
def Obligations.MshiftReturnsTheTranslatedMatrix : Prop :=
  ∀ (s : State) (m : Matrix8x8) (dx dy : Int), ∃ rm : Matrix8x8,
    exec (.mshift m dx dy) s =
      .next { s with response := some { status := .ok, result := some (.matrix rm), bus := [] } } ∧
    (∀ a b x y : Nat, a < 8 → b < 8 → x < 8 → y < 8 → (a : Int) = x + dx → (b : Int) = y + dy →
      cell rm a b = cell m x y) ∧
    (∀ a b : Nat, a < 8 → b < 8 → (∀ x y : Nat, x < 8 → y < 8 → ¬ ((a : Int) = x + dx ∧ (b : Int) = y + dy)) →
      cell rm a b = false) ∧
    (dx = 0 → dy = 0 → rm = m)

/-- MINV returns the complement of all 64 cells (`41_matrix_transform.md` R101; the definition is the spec's own, D16). -/
def Obligations.MinvReturnsTheComplement : Prop :=
  ∀ (s : State) (m : Matrix8x8), ∃ rm : Matrix8x8,
    exec (.minv m) s =
      .next { s with response := some { status := .ok, result := some (.matrix rm), bus := [] } } ∧
    ∀ x < 8, ∀ y < 8, cell rm x y = !cell m x y

/-- The laws of rotations, flips, shift and complement (`41_matrix_transform.md` R103 items 1 to 8). -/
def Obligations.MatrixTransformLaws : Prop :=
  ∀ m : Matrix8x8,
    rotate (rotate (rotate (rotate m .cw90) .cw90) .cw90) .cw90 = m ∧
    rotate (rotate (rotate (rotate m .ccw90) .ccw90) .ccw90) .ccw90 = m ∧
    rotate m .half = rotate (rotate m .cw90) .cw90 ∧ rotate m .half = rotate (rotate m .ccw90) .ccw90 ∧
    rotate (rotate m .cw90) .ccw90 = m ∧ rotate (rotate m .ccw90) .cw90 = m ∧
    rotate (rotate m .cw90) .half = rotate m .ccw90 ∧
    flipHorizontal (flipHorizontal m) = m ∧ flipVertical (flipVertical m) = m ∧
    flipVertical (flipHorizontal m) = rotate m .half ∧ flipHorizontal (flipVertical m) = rotate m .half ∧
    shiftMatrix m 0 0 = m ∧ (∀ dx dy : Int, shiftMatrix 0 dx dy = 0) ∧ ~~~(~~~m) = m

/-- Packing a matrix into its columns and back is the identity, both ways (`00_scope.md` R8). -/
def Obligations.PackingRoundTrip : Prop :=
  (∀ m : Matrix8x8, mat (cols m) = m) ∧ (∀ cs : List Byte, cs.length = 8 → cols (mat cs) = cs)

/-! ## The framebuffer -/

/-- FBCLR makes every column `0x00` and changes nothing else (`43_framebuffer.md` R130; the range and the value are the
spec's own reading, D17). -/
def Obligations.FbclrZeroesEveryColumn : Prop :=
  ∀ s : State, s.configured = true → ∃ fb : Memory,
    exec .fbclr s =
      .next { s with fb := fb, response := some { status := .ok, result := none, bus := [] } } ∧
    ∀ i < s.fbLen, fb.get i = 0x00

/-- FBWR writes its run from `clamp(off, -8, fbLen - 9) + 8` on, drops what falls beyond the buffer, and changes no other
column and nothing else (`43_framebuffer.md` R131). -/
def Obligations.FbwrWritesTheClampedRun : Prop :=
  ∀ (s : State) (off : Int) (run : List Byte), s.configured = true → 24 ≤ s.fbLen → ∃ (fb : Memory) (start : Nat),
    exec (.fbwr off run) s =
      .next { s with fb := fb, response := some { status := .ok, result := none, bus := [] } } ∧
    (start : Int) = max (-8) (min off ((s.fbLen : Int) - 9)) + 8 ∧
    (∀ k < run.length, start + k < s.fbLen → fb.get (start + k) = run.getD k 0) ∧
    (∀ i, i < start ∨ start + run.length ≤ i ∨ s.fbLen ≤ i → fb.get i = s.fb.get i)

/-- An FBWR offset below -8 acts as -8, one above `fbLen - 9` as `fbLen - 9`, and an empty run writes nothing
(`43_framebuffer.md` R132 items 1 to 3). -/
def Obligations.FbwrClampCorners : Prop :=
  ∀ (s : State) (off : Int) (run : List Byte), s.configured = true → 24 ≤ s.fbLen →
    (off < -8 → exec (.fbwr off run) s = exec (.fbwr (-8) run) s) ∧
    ((s.fbLen : Int) - 9 < off → exec (.fbwr off run) s = exec (.fbwr ((s.fbLen : Int) - 9) run) s) ∧
    exec (.fbwr off []) s = .next { s with response := some { status := .ok, result := none, bus := [] } }

/-- FBSHL moves every column one index down, puts `0x00` in the last, and changes nothing else (`43_framebuffer.md`
R133). -/
def Obligations.FbshlMovesEveryColumnDown : Prop :=
  ∀ s : State, s.configured = true → 0 < s.fbLen → ∃ fb : Memory,
    exec .fbshl s =
      .next { s with fb := fb, response := some { status := .ok, result := none, bus := [] } } ∧
    (∀ i, i + 1 < s.fbLen → fb.get i = s.fb.get (i + 1)) ∧ fb.get (s.fbLen - 1) = 0x00

/-- FBRDW returns the visible window, `rw[j] = fb[8 + j]`, and changes nothing (`43_framebuffer.md` R134). -/
def Obligations.FbrdwReturnsTheWindow : Prop :=
  ∀ s : State, s.configured = true → 8 * s.chipCount + 8 ≤ s.fbLen → ∃ rw : List Byte,
    exec .fbrdw s =
      .next { s with response := some { status := .ok, result := some (.window rw), bus := [] } } ∧
    rw.length = 8 * s.chipCount ∧ ∀ j < 8 * s.chipCount, rw[j]? = s.column (8 + j)

/-- FBWR then FBSHL shows the columns of FBSHL then FBWR one column to the left, when neither offset is clamped and no
column is clipped (`43_framebuffer.md` R135 item 2). -/
def Obligations.WriteThenShiftIsShiftThenWrite : Prop :=
  ∀ (s : State) (off : Int) (run : List Byte), s.configured = true → 24 ≤ s.fbLen →
    -8 ≤ off - 1 → off ≤ (s.fbLen : Int) - 9 → off + 8 + run.length ≤ s.fbLen →
    ∃ s1 t1 s2 t2, exec (.fbwr off run) s = .next s1 ∧ exec .fbshl s1 = .next t1 ∧
      exec .fbshl s = .next s2 ∧ exec (.fbwr (off - 1) run) s2 = .next t2 ∧
      ∀ i, t1.column i = t2.column i

/-! ## FLUSH -/

/-- FLUSH sends the visible window: for every slice its eight rotated columns to the eight column registers of its chip,
one transaction each, slices and columns in ascending order; it changes the latch and nothing else in the block
(`44_display_flush.md` R150 to R153; the mapping's polarity is D9, the order D18, both the spec's own). -/
def Obligations.FlushSendsTheRotatedWindow : Prop :=
  ∀ s : State, s.configured = true → 1 ≤ s.chipCount → 8 * s.chipCount + 8 ≤ s.fbLen →
    ∃ (bus : List BusEvent) (chain : List Chip),
      exec .flush s =
        .next { s with
          latch := .high, trace := s.trace ++ bus, chain := chain
          response := some { status := .ok, result := none, bus := bus } } ∧
      chain.length = s.chain.length ∧
      bus = (List.range s.chipCount).flatMap fun slice => (List.finRange 8).flatMap fun j =>
        let columns := (List.range 8).map fun k => s.fb.get (8 + 8 * slice + k)
        let chip := if s.reversed then slice else s.chipCount - 1 - slice
        [BusEvent.latch false] ++
          ((List.range s.chipCount).flatMap fun t =>
            if t = chip then [.byte (s.params.colCmd j), .byte (~~~columnByte (rotate (mat columns) s.rotation) j)]
            else [.byte s.params.cmdNoop, .byte 0x00]) ++
          [.latch true]

/-- After FLUSH every column register of every chip holds the complement of its rotated column and no other register has
changed (`44_display_flush.md` R154, under premise P1 of `42_chain_encoder.md` R125; D8 and D9 as above; one pair per chip
is D30, the chain's reaction log entry 9). -/
def Obligations.FlushFillsTheColumnRegisters : Prop :=
  ∀ s : State, s.params.Legal → s.configured = true → s.ChainMatches → 8 * s.chipCount + 8 ≤ s.fbLen →
    ∃ t, exec .flush s = .next t ∧
      (∀ slice < s.chipCount, ∀ j : Fin 8,
        t.chipReg (sliceToChipIndex slice s.chipCount s.reversed) (s.params.colCmd j) =
          some (~~~columnByte
            (rotate (mat ((List.range 8).map fun k => s.fb.get (8 + 8 * slice + k))) s.rotation) j)) ∧
      (∀ (i : Nat) (c : Byte), s.params.isColumnCmd c = false → t.chipReg i c = s.chipReg i c)

/-- After FLUSH of an unrotated window a cell of a chip is lit exactly when its bit in the framebuffer is set
(`42_chain_encoder.md` R123 with `44_display_flush.md` R154, under premise P1 of R125; D8, D9 and D30 as above, the
chain's reaction is log entry 9). -/
def Obligations.FlushLightsTheSetCells : Prop :=
  ∀ s : State, s.params.Legal → s.configured = true → s.ChainMatches → 8 * s.chipCount + 8 ≤ s.fbLen →
    s.rotation = .none →
    ∃ t, exec .flush s = .next t ∧ ∀ slice < s.chipCount, ∀ (j : Fin 8) (y : Nat), y < 8 →
      t.lit (sliceToChipIndex slice s.chipCount s.reversed) j y =
        (s.column (8 + 8 * slice + j)).map fun column => column.getLsbD y

/-- The slice-to-chip mapping is a bijection on `0 .. N-1` and its own inverse (`44_display_flush.md` R150; the polarity
is the spec's own choice, D9). -/
def Obligations.SliceMappingIsAnInvolution : Prop :=
  ∀ (n slice : Nat) (reversed : Bool), slice < n →
    sliceToChipIndex slice n reversed < n ∧
    sliceToChipIndex (sliceToChipIndex slice n reversed) n reversed = slice ∧
    sliceToChipIndex slice n true = slice ∧ sliceToChipIndex slice n false = n - 1 - slice

/-! ## Statuses -/

/-- Before the first CONFIGURE every operation on the configuration or the framebuffer returns NotConfigured and changes
nothing (`60_exceptions.md` R183, the spec's own choice D14). -/
def Obligations.UnconfiguredOperationsAreRefused : Prop :=
  ∀ (s : State) (cmd data : Byte) (idx : Nat) (off : Int) (run : List Byte), s.configured = false →
    ∀ i ∈ [Instr.bcast cmd data, .ucast cmd data idx, .fbclr, .fbwr off run, .fbshl, .fbrdw, .flush],
      exec i s = .next { s with response := some { status := .notConfigured, result := none, bus := [] } }

/-- The four reserved codes return IllegalOp and change nothing, configured or not (`30_encoding.md` R68,
`60_exceptions.md` R184, R187; the spec's own choice D20). -/
def Obligations.ReservedCodesAreIllegal : Prop :=
  ∀ s : State, ∀ i ∈ [Instr.reserved0000, .reserved1101, .reserved1110, .reserved1111],
    exec i s = .next { s with response := some { status := .illegalOp, result := none, bus := [] } }

/-- A status other than OK is precise: the operation has changed no field, sent nothing and returned no result. No status
is sticky: the response kept in the state (log entry 5) has no influence on any operation (`60_exceptions.md` R181). -/
def Obligations.NonOkStatusHasNoEffect : Prop :=
  (∀ (i : Instr) (s t : State) (r : Response), isCommand i = true → exec i s = .next t → t.response = some r →
    r.status ≠ .ok →
    t = { s with response := some { status := r.status, result := none, bus := [] } }) ∧
  (∀ (i : Instr) (s : State) (before : Option Response), isCommand i = true →
    exec i { s with response := before } = exec i s)

/-- From every state that meets the invariant, every operation of the command port ends with a response: none is stuck,
none faults, none is refused (`60_exceptions.md` R180, `20_memory.md` R45). -/
def Obligations.EveryOperationCompletes : Prop :=
  ∀ (i : Instr) (s : State), s.Inv → isCommand i = true →
    ∃ (t : State) (r : Response), exec i s = .next t ∧ t.response = some r

/-- From every state that meets the invariant a step completes, whatever is presented: ports that fit, or a latched pair of
a chip that the chain has (`20_memory.md` R45, R51, `60_exceptions.md` R180; the inbox and the latched pair as a step are
the model's choice, log entries 7 and 8). -/
def Obligations.EveryFittingStepCompletes : Prop :=
  ∀ s : State, s.Inv → (∀ q rest, s.inbox = .command q :: rest → q.Fits s.params) →
    (∀ chip rest, s.inbox = .latched chip :: rest → chip < s.chain.length) → s.SafeStep

/-! ## The receiving chips -/

/-- A column pair writes its register of the receiving chip, no other register and no shift register of any chip, and
changes nothing in the block (`30_encoding.md` R73; the step of one chip by itself is the model's choice, log
entry 8). -/
def Obligations.ColumnPairWritesItsRegister : Prop :=
  ∀ (s : State) (chip : Nat) (d : Byte), chip < s.chain.length →
    ∀ ij ∈ [(Instr.wireCol0 chip d, (0 : Fin 8)), (.wireCol1 chip d, 1), (.wireCol2 chip d, 2), (.wireCol3 chip d, 3),
        (.wireCol4 chip d, 4), (.wireCol5 chip d, 5), (.wireCol6 chip d, 6), (.wireCol7 chip d, 7)],
      ∃ chain, exec ij.1 s = .next { s with chain := chain } ∧ chain.length = s.chain.length ∧
        (∀ i : Nat, ({ s with chain := chain } : State).chipPair i = s.chipPair i) ∧
        ({ s with chain := chain } : State).chipReg chip (s.params.colCmd ij.2) = some d ∧
        ∀ (i : Nat) (c : Byte), i ≠ chip ∨ c ≠ s.params.colCmd ij.2 →
          ({ s with chain := chain } : State).chipReg i c = s.chipReg i c

/-- A command that is neither the no-op nor a column command writes the register it numbers, no other register and no
shift register; the no-op command writes nothing (`30_encoding.md` R73, `42_chain_encoder.md` R113; the step of one chip
by itself is the model's choice, log entry 8). -/
def Obligations.OtherPairWritesTheRegisterItNames : Prop :=
  ∀ (s : State) (chip : Nat) (c d : Byte), chip < s.chain.length →
    exec (.wireNoop chip d) s = .next s ∧
    ((Instr.wireOther chip c d).wf s.params = true →
      ∃ chain, exec (.wireOther chip c d) s = .next { s with chain := chain } ∧ chain.length = s.chain.length ∧
        (∀ i : Nat, ({ s with chain := chain } : State).chipPair i = s.chipPair i) ∧
        ({ s with chain := chain } : State).chipReg chip c = some d ∧
        ∀ (i : Nat) (e : Byte), i ≠ chip ∨ e ≠ c →
          ({ s with chain := chain } : State).chipReg i e = s.chipReg i e)

/-- A chip that commits at the rising latch does what the class of its pair says: the commit of a transaction and the
receiver's decode table agree (`42_chain_encoder.md` R122, `30_encoding.md` R73). That the class of a pair is a step of
one chip by itself, without response or bus event, is the model's choice (log entry 8). -/
def Obligations.CommitFollowsTheDecodeTable : Prop :=
  ∀ (s : State) (i : Nat) (chip : Chip) (instr : Instr), s.chain[i]? = some chip →
    decode s.params (.pair i (mkPair chip.first chip.second)) = .ok instr →
    exec instr s = .next { s with chain := s.chain.modify i (Chip.commit s.params.cmdNoop) }

/-! ## The whole machine -/

/-- The reset state (`10_state.md` R32; the parameters, `chipCount`, `rotation`, `reversed`, the chain and the model's own
fields are the model's choice, log entries 1 to 12) meets the invariant. -/
def Obligations.ResetMeetsTheInvariant : Prop :=
  State.reset.configured = false ∧ State.reset.fbLen = 0 ∧ State.reset.latch = .unknown ∧ State.reset.Inv

/-- Every step keeps the invariant (`10_state.md` R33: I1, I2, I4, and the canonical form of the memories). -/
def Obligations.StepKeepsTheInvariant : Prop :=
  ∀ s t : State, s.Inv → step s = .next t → t.Inv

/-- No step shortens the framebuffer or the bus trace, unconfigures the block, or changes the parameters or the number of
chips (`10_state.md` R23, R27, R30, R33 I3). That the parameters stay is `10_state.md` R29 with the model's choice to
carry them in the state (log entry 2, `00_scope.md` R5); that the number of chips stays is the model's choice (log
entry 10). -/
def Obligations.StepsOnlyGrow : Prop :=
  ∀ s t : State, step s = .next t →
    s.fbLen ≤ t.fbLen ∧ (∃ bus, t.trace = s.trace ++ bus) ∧ (s.configured = true → t.configured = true) ∧
    t.params = s.params ∧ t.chain.length = s.chain.length

/-- Only CONFIGURE changes the configuration; only CONFIGURE, FBCLR, FBWR and FBSHL change a column; only BCAST, UCAST and
FLUSH drive the bus (`10_state.md` R20, `43_framebuffer.md` R135 item 4, `70_reset_and_hazards.md` R207). That the inbox
is kept and that a wire pair keeps the response are the model's choice (log entries 7 and 8). -/
def Obligations.WhoChangesWhat : Prop :=
  ∀ (i : Instr) (s t : State), exec i s = .next t →
    ((∀ n rot rev, i ≠ .configure n rot rev) →
      t.configured = s.configured ∧ t.chipCount = s.chipCount ∧ t.rotation = s.rotation ∧
      t.reversed = s.reversed ∧ t.fbLen = s.fbLen) ∧
    ((∀ n rot rev, i ≠ .configure n rot rev) → i ≠ .fbclr → (∀ off run, i ≠ .fbwr off run) → i ≠ .fbshl →
      t.fb = s.fb) ∧
    ((∀ cmd data, i ≠ .bcast cmd data) → (∀ cmd data idx, i ≠ .ucast cmd data idx) → i ≠ .flush →
      t.trace = s.trace ∧ t.latch = s.latch ∧ (isCommand i = true → t.chain = s.chain)) ∧
    t.inbox = s.inbox ∧ (isCommand i = false → t.response = s.response)

/-- What an operation appends to the trace is a sequence of whole transactions, each latch low, N pairs, latch high; the
latch is high after one, and as it was when there is none (`42_chain_encoder.md` R116, `30_encoding.md` R65). -/
def Obligations.TraceIsWholeTransactions : Prop :=
  ∀ (i : Instr) (s t : State), exec i s = .next t →
    ∃ transactions : List (List (Byte × Byte)),
      (∀ pairs ∈ transactions, pairs.length = s.chipCount) ∧
      t.trace = s.trace ++ transactions.flatMap (fun pairs =>
        [BusEvent.latch false] ++ (pairs.flatMap fun pair => [.byte pair.1, .byte pair.2]) ++ [.latch true]) ∧
      t.latch = if transactions.isEmpty then s.latch else .high

/-- The response of an operation carries exactly the events it appended to the trace (`30_encoding.md` R63,
`10_state.md` R30). -/
def Obligations.ResponseCarriesTheNewEvents : Prop :=
  ∀ (i : Instr) (s t : State), isCommand i = true → exec i s = .next t →
    ∃ r, t.response = some r ∧ t.trace = s.trace ++ r.bus

/-! ## Pseudo-operations and host sequences -/

/-- DISPM.ALL shows the matrix on every chip, column j in register COLCMD(j), complemented and not rotated
(`44_display_flush.md` R155, the spec's own choice D29; premise P1 of `42_chain_encoder.md` R125; one pair per chip is
D30, the chain's reaction log entry 9). -/
def Obligations.DisplayPatternReachesEveryChip : Prop :=
  ∀ (s : State) (m : Matrix8x8), s.params.Legal → s.configured = true → s.ChainMatches →
    ∃ t, runAll ((PseudoOp.dispm .all m).expand s.params) s = .next t ∧
      (∀ i < s.chipCount, ∀ j : Fin 8, t.chipReg i (s.params.colCmd j) = some (~~~columnByte m j)) ∧
      t.fb = s.fb ∧ t.fbLen = s.fbLen

/-- A scroll shifts the framebuffer once for every column of the text and once for every column of the window, and
flushes as often (`45_host_sequences.md` R172, R175 item 1). -/
def Obligations.ScrollStepCount : Prop :=
  ∀ (n : Nat) (glyphs : List Glyph) (stepMs endMs : Nat) (actions : List HostAction),
    scrollText n glyphs stepMs endMs = .ok actions →
    (operationsOf actions).count .fbshl = (glyphs.map Glyph.length).sum + 8 * n ∧
    (operationsOf actions).count .flush = (glyphs.map Glyph.length).sum + 8 * n

/-- After a scroll the visible window is all zero, when every glyph has one to eight columns and the columns from `8n + 8`
on were zero before it; the block is configured for the `n` chips and has its margins (`45_host_sequences.md` R172, R175
item 1, by `43_framebuffer.md` R135 item 3). R175 says at most eight columns; that a glyph has at least one is a premise
of the model's (log entry 20). -/
def Obligations.ScrollLeavesTheWindowDark : Prop :=
  ∀ (s : State) (glyphs : List Glyph) (stepMs endMs : Nat) (actions : List HostAction),
    s.configured = true → (s.chipCount + 2) * 8 ≤ s.fbLen →
    (∀ g ∈ glyphs, 1 ≤ g.length ∧ g.length ≤ 8) →
    (∀ i, 8 * s.chipCount + 8 ≤ i → i < s.fbLen → s.fb.get i = 0x00) →
    scrollText s.chipCount glyphs stepMs endMs = .ok actions →
    ∃ t, runAll (operationsOf actions) s = .next t ∧ t.fbLen = s.fbLen ∧ t.chipCount = s.chipCount ∧
      ∀ j < 8 * s.chipCount, t.column (8 + j) = some 0x00

/-- Layout skips every character without a glyph and gives the glyphs, the advance of each and of all, with no spacing
column; it fails exactly when no character has a glyph (`45_host_sequences.md` R171; the empty text is among those, log
entry 21). -/
def Obligations.LayoutSkipsUnmatchedCharacters : Prop :=
  ∀ (lookup : Char → Option Glyph) (text : List Char),
    ((∀ ch ∈ text, lookup ch = none) → layoutText lookup text = .error .allGlyphsUnmatched) ∧
    ((∃ ch ∈ text, lookup ch ≠ none) → ∃ l, layoutText lookup text = .ok l ∧
      l.glyphSequence.map some = (text.map lookup).filter Option.isSome ∧
      l.perGlyphAdvance = l.glyphSequence.map (fun g => g.columns.length) ∧ l.totalAdvance = l.perGlyphAdvance.sum)

/-- BRIGHT.ALL leaves the low 8 bits of its level, unchanged by the wire, in the intensity register of every chip, and no
other register changed, where the intensity command is neither a column command, as R156 takes it, nor the no-op
(`44_display_flush.md` R156, D7; legality asks neither, log entry 19; premise P1 of `42_chain_encoder.md` R125; one pair
per chip is D30, the chain's reaction log entry 9). -/
def Obligations.BrightSetsTheIntensityRegister : Prop :=
  ∀ (s : State) (level : Nat), s.configured = true → s.ChainMatches →
    s.params.isColumnCmd s.params.cmdIntensity = false → s.params.cmdIntensity ≠ s.params.cmdNoop →
    ∃ t, runAll ((PseudoOp.bright .all level).expand s.params) s = .next t ∧
      (∀ i < s.chipCount, t.chipReg i s.params.cmdIntensity = some (BitVec.ofNat 8 level)) ∧
      ∀ (i : Nat) (c : Byte), c ≠ s.params.cmdIntensity → t.chipReg i c = s.chipReg i c
end

