-- ==== Sys2Proof/Laws/Coding.lean ====
section
/-! SUPPORT. The laws of the codes: ports, pairs and enumerations survive encoding and decoding. -/

namespace Sys2Proof

@[simp] theorem decodeRotation_encode (r : Rotation) : decodeRotation (encodeRotation r) = r := by cases r <;> rfl

@[simp] theorem decodeAxis_encode (a : Axis) : decodeAxis (encodeAxis a) = a := by cases a <;> rfl

theorem zext_of_fits {w n : Nat} (h : fitsUnsigned w n = true) : zext w n = n :=
  Nat.mod_eq_of_lt (of_decide_eq_true h)

theorem zext_lt (w n : Nat) : zext w n < 2 ^ w := Nat.mod_lt _ (Nat.two_pow_pos w)

theorem rawOfInt_lt (w : Nat) (x : Int) : rawOfInt w x < 2 ^ w := BitVec.isLt _

/-- A signed value that a port can carry is read back as it is. -/
theorem sext_rawOfInt {w : Nat} {x : Int} (h : fitsSigned w x = true) : sext w (rawOfInt w x) = x := by
  simp only [fitsSigned, Bool.and_eq_true, decide_eq_true_eq] at h
  have h0 : ((2 ^ w : Nat) : Int) = (2 : Int) ^ w := by norm_cast
  simp only [sext, rawOfInt, BitVec.ofNat_toNat, BitVec.setWidth_eq, BitVec.toInt_ofInt]
  rcases w with _ | k
  · have : x = 0 := by omega
    simp [this]
  · have hk : (2 : Int) ^ (k + 1) = 2 * 2 ^ k := by rw [pow_succ]; ring
    apply Int.bmod_eq_of_le <;> rw [h0] <;> omega

/-- The value read from a signed port is one that the port can carry. -/
theorem fitsSigned_sext (w raw : Nat) : fitsSigned w (sext w raw) = true := by
  simp only [fitsSigned, sext, Bool.and_eq_true]
  have h1 := BitVec.two_mul_toInt_lt (x := BitVec.ofNat w raw)
  have h2 := BitVec.le_two_mul_toInt (x := BitVec.ofNat w raw)
  exact ⟨decide_eq_true h2, decide_eq_true h1⟩

@[simp] theorem pairCommand_mkPair (c d : Byte) : pairCommand (mkPair c d) = c := by
  refine BitVec.eq_of_getLsbD_eq fun i hi => ?_
  have h := BitVec.getLsbD_append (x := c) (y := d) (i := 8 + i)
  simp only [pairCommand, mkPair, BitVec.getLsbD_extractLsb', hi, decide_true, Bool.true_and]
  rw [show 8 + i = i + 8 by omega] at h ⊢
  exact h.trans (by simp)

@[simp] theorem pairData_mkPair (c d : Byte) : pairData (mkPair c d) = d := by
  refine BitVec.eq_of_getLsbD_eq fun i hi => ?_
  have h := BitVec.getLsbD_append (x := c) (y := d) (i := i)
  simp only [pairData, mkPair, BitVec.getLsbD_extractLsb', hi, decide_true, Bool.true_and, Nat.zero_add]
  exact h.trans (by simp [hi])

/-- A pair is its command byte and its data byte. -/
@[simp] theorem mkPair_eta (w : BitVec 16) : mkPair (pairCommand w) (pairData w) = w := by
  refine BitVec.eq_of_getLsbD_eq fun i hi => ?_
  refine (BitVec.getLsbD_append (x := pairCommand w) (y := pairData w) (i := i)).trans ?_
  by_cases h8 : i < 8
  · simp [h8, pairData]
  · have h : i - 8 < 8 := by omega
    simp [h8, pairCommand, h, show 8 + (i - 8) = i by omega]

/-- A column command is one of the eight, by its column. -/
theorem isColumnCmd_iff (p : Params) (c : Byte) : p.isColumnCmd c = true ↔ ∃ j : Fin 8, p.colCmd j = c := by
  simp only [Params.isColumnCmd, Params.colCmd, List.contains_iff_mem, Vector.mem_toList_iff]
  constructor
  · intro h
    obtain ⟨i, hi, h⟩ := Vector.getElem_of_mem h
    exact ⟨⟨i, hi⟩, h⟩
  · rintro ⟨j, rfl⟩
    exact Vector.getElem_mem j.isLt

@[simp] theorem isColumnCmd_colCmd (p : Params) (j : Fin 8) : p.isColumnCmd (p.colCmd j) = true :=
  (isColumnCmd_iff p _).2 ⟨j, rfl⟩

/-- Under legal parameters two columns have the same command only when they are the same column. -/
theorem colCmd_inj {p : Params} (h : p.Legal) {i j : Fin 8} (hij : p.colCmd i = p.colCmd j) : i = j := by
  have hn : p.colCmds.toList.Nodup := h.2.2.2.1
  have hi : p.colCmd i = p.colCmds.toList[i.val]'(by simp) := by simp [Params.colCmd]
  have hj : p.colCmd j = p.colCmds.toList[j.val]'(by simp) := by simp [Params.colCmd]
  rw [hi, hj] at hij
  exact Fin.ext ((List.Nodup.getElem_inj_iff hn).1 hij)

/-- Under legal parameters no column command is the no-op command. -/
theorem colCmd_ne_noop {p : Params} (h : p.Legal) (j : Fin 8) : p.colCmd j ≠ p.cmdNoop := by
  intro he
  apply h.2.2.2.2
  rw [← he]
  simp [Params.colCmd]

/-- Under legal parameters the no-op command is no column command. -/
theorem isColumnCmd_noop {p : Params} (h : p.Legal) : p.isColumnCmd p.cmdNoop = false := by
  simpa [Params.isColumnCmd] using h.2.2.2.2

theorem wire_colCmd (p : Params) (j : Fin 8) (d : Byte) : p.wire (p.colCmd j) d = ~~~d := by
  simp [Params.wire]

end Sys2Proof
end

