-- ==== Sys2Proof/Laws/Matrix.lean ====
section
/-! SUPPORT. The laws of the bit matrix: a matrix is its 64 cells, and each transform is described by its cells. -/

namespace Sys2Proof.Machine

theorem bitsBelow_lt (f : Nat → Bool) (w : Nat) : bitsBelow f w < 2 ^ w := by
  induction w with
  | zero => simp [bitsBelow]
  | succ w ih =>
    have : (f w).toNat ≤ 1 := Bool.toNat_le _
    have h2 : (f w).toNat * 2 ^ w ≤ 1 * 2 ^ w := Nat.mul_le_mul_right _ this
    rw [bitsBelow, Nat.pow_succ]
    omega

theorem testBit_bitsBelow (f : Nat → Bool) (w i : Nat) :
    (bitsBelow f w).testBit i = (decide (i < w) && f i) := by
  induction w with
  | zero => simp [bitsBelow]
  | succ w ih =>
    rw [bitsBelow, Nat.add_comm, Nat.mul_comm, Nat.testBit_two_pow_mul_add _ (bitsBelow_lt f w), ih]
    by_cases h : i < w
    · have : i < w + 1 := by omega
      simp [h, this]
    · by_cases h' : i = w
      · subst h'
        cases f i <;> simp
      · have h1 : ¬ i < w + 1 := by omega
        have h2 : i - w ≠ 0 := by omega
        have h3 : Nat.testBit 1 (i - w) = false := by
          simpa using mt Nat.testBit_one_eq_true_iff_self_eq_zero.1 h2
        cases f w <;> simp [h, h1, h3]

/-- The cells of a matrix given by its cells. -/
theorem cell_ofCells (f : Nat → Nat → Bool) {x y : Nat} (hx : x < 8) (hy : y < 8) :
    cell (ofCells f) x y = f x y := by
  have h : 8 * x + y < 64 := by omega
  have h1 : (8 * x + y) / 8 = x := by omega
  have h2 : (8 * x + y) % 8 = y := by omega
  rw [cell, ofCells, BitVec.getLsbD_ofNat, testBit_bitsBelow]
  simp only [h, h1, h2, decide_true, Bool.true_and]

/-- Two matrices with the same cells are the same. -/
theorem matrix_ext {m n : Matrix8x8} (h : ∀ x < 8, ∀ y < 8, cell m x y = cell n x y) : m = n := by
  refine BitVec.eq_of_getLsbD_eq fun i hi => ?_
  have := h (i / 8) (by omega) (i % 8) (by omega)
  simpa [cell, Nat.div_add_mod] using this

theorem cell_not (m : Matrix8x8) {x y : Nat} (hx : x < 8) (hy : y < 8) : cell (~~~m) x y = !cell m x y := by
  have h : 8 * x + y < 64 := by omega
  simp [cell, h]

/-! ## Packing -/

@[simp] theorem length_cols (m : Matrix8x8) : (cols m).length = 8 := by simp [cols]

theorem getLsbD_columnByte (m : Matrix8x8) (x : Nat) {y : Nat} (hy : y < 8) :
    (columnByte m x).getLsbD y = cell m x y := by
  simp [columnByte, cell, hy]

theorem getD_cols (m : Matrix8x8) {x : Nat} (hx : x < 8) : (cols m).getD x 0 = columnByte m x := by
  simp [cols, List.getD_eq_getElem?_getD, hx]

theorem cell_mat (cs : List Byte) {x y : Nat} (hx : x < 8) (hy : y < 8) :
    cell (mat cs) x y = (cs.getD x 0).getLsbD y :=
  cell_ofCells _ hx hy

theorem columnByte_mat (cs : List Byte) {x : Nat} (hx : x < 8) : columnByte (mat cs) x = cs.getD x 0 := by
  refine BitVec.eq_of_getLsbD_eq fun y hy => ?_
  rw [getLsbD_columnByte _ _ hy, cell_mat _ hx hy]

/-! ## Transforms by their cells -/

theorem cell_cw90 (m : Matrix8x8) {a b : Nat} (ha : a < 8) (hb : b < 8) :
    cell (rotate m .cw90) a b = cell m b (7 - a) := by
  rw [rotate, cell_ofCells _ ha hb]

theorem cell_ccw90 (m : Matrix8x8) {a b : Nat} (ha : a < 8) (hb : b < 8) :
    cell (rotate m .ccw90) a b = cell m (7 - b) a := by
  rw [rotate, cell_ofCells _ ha hb]

theorem cell_half (m : Matrix8x8) {a b : Nat} (ha : a < 8) (hb : b < 8) :
    cell (rotate m .half) a b = cell m (7 - a) (7 - b) := by
  rw [rotate, cell_ofCells _ ha hb]

theorem cell_flipHorizontal (m : Matrix8x8) {a b : Nat} (ha : a < 8) (hb : b < 8) :
    cell (flipHorizontal m) a b = cell m (7 - a) b := by
  rw [flipHorizontal, cell_ofCells _ ha hb]

theorem cell_flipVertical (m : Matrix8x8) {a b : Nat} (ha : a < 8) (hb : b < 8) :
    cell (flipVertical m) a b = cell m a (7 - b) := by
  rw [flipVertical, cell_ofCells _ ha hb]

theorem cell_shiftMatrix (m : Matrix8x8) (dx dy : Int) {a b : Nat} (ha : a < 8) (hb : b < 8) :
    cell (shiftMatrix m dx dy) a b = cellOrZero m ((a : Int) - dx) ((b : Int) - dy) := by
  rw [shiftMatrix, cell_ofCells _ ha hb]

end Sys2Proof.Machine
end

