-- ==== Sys2Proof/Laws/State.lean ====
section
/-! SUPPORT. One lemma per field per named update of State: what the bus primitives, the growth of the framebuffer and
the presentation of an instruction leave alone. -/

namespace Sys2Proof.Machine

variable (s before : State) (b : Bool) (v : Byte) (need : Nat) (e : Encoded) (pair : Byte × Byte)

/-! ## setLatch -/

@[simp] theorem setLatch_params : (s.setLatch b).params = s.params := rfl
@[simp] theorem setLatch_configured : (s.setLatch b).configured = s.configured := rfl
@[simp] theorem setLatch_chipCount : (s.setLatch b).chipCount = s.chipCount := rfl
@[simp] theorem setLatch_rotation : (s.setLatch b).rotation = s.rotation := rfl
@[simp] theorem setLatch_reversed : (s.setLatch b).reversed = s.reversed := rfl
@[simp] theorem setLatch_fbLen : (s.setLatch b).fbLen = s.fbLen := rfl
@[simp] theorem setLatch_fb : (s.setLatch b).fb = s.fb := rfl
@[simp] theorem setLatch_latch : (s.setLatch b).latch = if b then .high else .low := rfl
@[simp] theorem setLatch_trace : (s.setLatch b).trace = s.trace ++ [.latch b] := rfl
@[simp] theorem setLatch_response : (s.setLatch b).response = s.response := rfl
@[simp] theorem setLatch_chain :
    (s.setLatch b).chain = latchChain s.params.cmdNoop s.latch b s.chain := rfl
@[simp] theorem setLatch_inbox : (s.setLatch b).inbox = s.inbox := rfl

/-! ## writeByte -/

@[simp] theorem writeByte_params : (s.writeByte v).params = s.params := rfl
@[simp] theorem writeByte_configured : (s.writeByte v).configured = s.configured := rfl
@[simp] theorem writeByte_chipCount : (s.writeByte v).chipCount = s.chipCount := rfl
@[simp] theorem writeByte_rotation : (s.writeByte v).rotation = s.rotation := rfl
@[simp] theorem writeByte_reversed : (s.writeByte v).reversed = s.reversed := rfl
@[simp] theorem writeByte_fbLen : (s.writeByte v).fbLen = s.fbLen := rfl
@[simp] theorem writeByte_fb : (s.writeByte v).fb = s.fb := rfl
@[simp] theorem writeByte_latch : (s.writeByte v).latch = s.latch := rfl
@[simp] theorem writeByte_trace : (s.writeByte v).trace = s.trace ++ [.byte v] := rfl
@[simp] theorem writeByte_response : (s.writeByte v).response = s.response := rfl
@[simp] theorem writeByte_chain : (s.writeByte v).chain = (shiftIn s.chain v).1 := rfl
@[simp] theorem writeByte_inbox : (s.writeByte v).inbox = s.inbox := rfl

/-! ## growTo -/

@[simp] theorem growTo_params : (s.growTo need).params = s.params := by unfold State.growTo; split <;> rfl
@[simp] theorem growTo_configured : (s.growTo need).configured = s.configured := by unfold State.growTo; split <;> rfl
@[simp] theorem growTo_chipCount : (s.growTo need).chipCount = s.chipCount := by unfold State.growTo; split <;> rfl
@[simp] theorem growTo_rotation : (s.growTo need).rotation = s.rotation := by unfold State.growTo; split <;> rfl
@[simp] theorem growTo_reversed : (s.growTo need).reversed = s.reversed := by unfold State.growTo; split <;> rfl
@[simp] theorem growTo_latch : (s.growTo need).latch = s.latch := by unfold State.growTo; split <;> rfl
@[simp] theorem growTo_trace : (s.growTo need).trace = s.trace := by unfold State.growTo; split <;> rfl
@[simp] theorem growTo_response : (s.growTo need).response = s.response := by unfold State.growTo; split <;> rfl
@[simp] theorem growTo_chain : (s.growTo need).chain = s.chain := by unfold State.growTo; split <;> rfl
@[simp] theorem growTo_inbox : (s.growTo need).inbox = s.inbox := by unfold State.growTo; split <;> rfl

@[simp] theorem growTo_fbLen : (s.growTo need).fbLen = max s.fbLen need := by
  unfold State.growTo
  split <;> simp <;> omega

/-! ## present -/

@[simp] theorem present_params : (s.present e).params = s.params := by cases e <;> rfl
@[simp] theorem present_configured : (s.present e).configured = s.configured := by cases e <;> rfl
@[simp] theorem present_chipCount : (s.present e).chipCount = s.chipCount := by cases e <;> rfl
@[simp] theorem present_rotation : (s.present e).rotation = s.rotation := by cases e <;> rfl
@[simp] theorem present_reversed : (s.present e).reversed = s.reversed := by cases e <;> rfl
@[simp] theorem present_fbLen : (s.present e).fbLen = s.fbLen := by cases e <;> rfl
@[simp] theorem present_fb : (s.present e).fb = s.fb := by cases e <;> rfl
@[simp] theorem present_latch : (s.present e).latch = s.latch := by cases e <;> rfl
@[simp] theorem present_trace : (s.present e).trace = s.trace := by cases e <;> rfl
@[simp] theorem present_response : (s.present e).response = s.response := by cases e <;> rfl

/-! ## the named reads under an update that does not concern them -/

@[simp] theorem column_setLatch (i : Nat) : (s.setLatch b).column i = s.column i := rfl
@[simp] theorem column_writeByte (i : Nat) : (s.writeByte v).column i = s.column i := rfl

end Sys2Proof.Machine
end

