-- ==== Sys2Proof/Laws/Memory.lean ====
section
/-! SUPPORT. The laws of the sparse memories: a read after each write, and that every write keeps the canonical form. -/

namespace Sys2Proof.Machine

/-! ## Cells -/

theorem cellAt_eq_none {cs : List Host.Cell} {k : Nat} (h : ∀ c ∈ cs, c.1 ≠ k) : cellAt cs k = none := by
  induction cs with
  | nil => rfl
  | cons c cs ih =>
    have hc := h c (by simp)
    simp only [cellAt, hc, if_false]
    exact ih fun d hd => h d (by simp [hd])

theorem cellAt_filter (cs : List Host.Cell) (keep : Nat → Bool) (k : Nat) :
    cellAt (cs.filter fun c => keep c.1) k = if keep k then cellAt cs k else none := by
  induction cs with
  | nil => simp [cellAt]
  | cons c cs ih =>
    obtain ⟨a, v⟩ := c
    by_cases hk : keep a <;> by_cases ha : a = k <;> simp_all [cellAt]

@[simp] theorem cellAt_erase (cs : List Host.Cell) (k j : Nat) :
    cellAt (cellErase cs k) j = if j = k then none else cellAt cs j := by
  unfold cellErase
  rw [cellAt_filter cs (fun a => a != k) j]
  by_cases h : j = k <;> simp [h]

theorem cellAt_insert {cs : List Host.Cell} {k : Nat} (v : Byte) (j : Nat) (h : ∀ c ∈ cs, c.1 ≠ k) :
    cellAt (cellInsert k v cs) j = if j = k then some v else cellAt cs j := by
  induction cs with
  | nil => simp [cellInsert, cellAt, eq_comm]
  | cons c cs ih =>
    obtain ⟨a, w⟩ := c
    have ha : a ≠ k := h (a, w) (by simp)
    have ih := ih fun d hd => h d (by simp [hd])
    unfold cellInsert
    split
    · simp [cellAt, eq_comm]
    · simp only [cellAt, ih]
      by_cases hj : a = j
      · subst hj; simp [ha]
      · simp [hj]

theorem mem_cellErase {cs : List Host.Cell} {k : Nat} {c : Host.Cell} :
    c ∈ cellErase cs k ↔ c ∈ cs ∧ c.1 ≠ k := by
  simp [cellErase]

theorem mem_cellInsert {cs : List Host.Cell} {k : Nat} {v : Byte} {c : Host.Cell} :
    c ∈ cellInsert k v cs ↔ c = (k, v) ∨ c ∈ cs := by
  induction cs with
  | nil => simp [cellInsert]
  | cons d cs ih =>
    obtain ⟨a, w⟩ := d
    unfold cellInsert
    split
    · simp
    · simp [ih]; tauto

theorem mem_cellPut {cs : List Host.Cell} {k : Nat} {v : Byte} {c : Host.Cell} :
    c ∈ cellPut cs k v ↔ c = (k, v) ∨ (c ∈ cs ∧ c.1 ≠ k) := by
  simp [cellPut, mem_cellInsert, mem_cellErase]

@[simp] theorem cellAt_put (cs : List Host.Cell) (k : Nat) (v : Byte) (j : Nat) :
    cellAt (cellPut cs k v) j = if j = k then some v else cellAt cs j := by
  unfold cellPut
  rw [cellAt_insert v j fun c hc => (mem_cellErase.1 hc).2, cellAt_erase]
  split <;> rfl

theorem cellsRising_filter {cs : List Host.Cell} (p : Host.Cell → Bool) (h : cellsRising cs) :
    cellsRising (cs.filter p) :=
  List.Pairwise.filter p h

theorem cellsRising_insert {cs : List Host.Cell} {k : Nat} (v : Byte) (h : cellsRising cs)
    (hk : ∀ c ∈ cs, c.1 ≠ k) : cellsRising (cellInsert k v cs) := by
  induction cs with
  | nil => exact List.pairwise_singleton _ _
  | cons c cs ih =>
    obtain ⟨a, w⟩ := c
    have ha : a ≠ k := hk (a, w) (by simp)
    obtain ⟨h1, h2⟩ := List.pairwise_cons.1 h
    unfold cellInsert
    split
    · rename_i hlt
      refine List.pairwise_cons.2 ⟨fun d hd => ?_, h⟩
      rcases List.mem_cons.1 hd with rfl | hd
      · exact hlt
      · exact lt_trans hlt (h1 d hd)
    · rename_i hge
      refine List.pairwise_cons.2 ⟨fun d hd => ?_, ih h2 fun d hd => hk d (by simp [hd])⟩
      rcases mem_cellInsert.1 hd with rfl | hd
      · show a < k
        omega
      · exact h1 d hd

theorem cellsRising_put {cs : List Host.Cell} (k : Nat) (v : Byte) (h : cellsRising cs) :
    cellsRising (cellPut cs k v) :=
  cellsRising_insert v (cellsRising_filter _ h) fun _ hc => (mem_cellErase.1 hc).2

/-! ## The framebuffer's memory: reads after writes -/

@[simp] theorem get_nil (a : Nat) : Memory.get [] a = 0 := rfl

@[simp] theorem get_set (m : Memory) (a : Nat) (v : Byte) (j : Nat) :
    (m.set a v).get j = if j = a then v else m.get j := by
  unfold Memory.set Memory.get
  split
  · rename_i hv
    by_cases hj : j = a <;> simp [hv, hj]
  · by_cases hj : j = a <;> simp [hj]

@[simp] theorem get_below (m : Memory) (n j : Nat) :
    (m.below n).get j = if j < n then m.get j else 0 := by
  unfold Memory.below Memory.get
  rw [cellAt_filter m (fun a => decide (a < n)) j]
  by_cases h : j < n <;> simp [h]

@[simp] theorem get_down (m : Memory) (j : Nat) : m.down.get j = m.get (j + 1) := by
  unfold Memory.get
  congr 1
  induction m with
  | nil => rfl
  | cons c m ih =>
    obtain ⟨a, v⟩ := c
    cases a with
    | zero => simpa [Memory.down, cellAt] using ih
    | succ a =>
      simp only [Memory.down, List.filterMap_cons] at ih ⊢
      simp [cellAt, ih]

theorem get_setRun (m : Memory) (bound start : Nat) (run : List Byte) (j : Nat) :
    (m.setRun bound start run).get j =
      if start ≤ j ∧ j < bound then (run[j - start]?).getD (m.get j) else m.get j := by
  induction run generalizing m start with
  | nil => simp [Memory.setRun]
  | cons b bs ih =>
    rw [Memory.setRun, ih]
    by_cases h1 : start = j
    · subst h1
      by_cases h2 : start < bound <;> simp [h2]
    · by_cases h2 : start ≤ j ∧ j < bound
      · have h3 : start + 1 ≤ j ∧ j < bound := by omega
        have h4 : j - start = (j - (start + 1)) + 1 := by omega
        have h5 : start < bound := by omega
        have h6 : ¬ j = start := by omega
        rw [if_pos h3, if_pos h2, h4]
        simp [h5, h6]
      · have h3 : ¬ (start + 1 ≤ j ∧ j < bound) := by omega
        rw [if_neg h3, if_neg h2]
        by_cases h5 : start < bound
        · have h6 : ¬ j = start := by omega
          simp [h5, h6]
        · simp [h5]

/-! ## The canonical form is kept -/

theorem wf_nil : Memory.wf [] := ⟨List.Pairwise.nil, by simp⟩

theorem wf_reset : State.reset.fb.wf := wf_nil

theorem wf_filter {m : Memory} (p : Host.Cell → Bool) (h : m.wf) : Memory.wf (m.filter p) :=
  ⟨cellsRising_filter p h.1, fun c hc => h.2 c (List.mem_of_mem_filter hc)⟩

theorem wf_set {m : Memory} (a : Nat) (v : Byte) (h : m.wf) : (m.set a v).wf := by
  unfold Memory.set
  split
  · exact wf_filter _ h
  · rename_i hv
    refine ⟨cellsRising_put a v h.1, fun c hc => ?_⟩
    rcases mem_cellPut.1 hc with rfl | ⟨hc, -⟩
    · exact hv
    · exact h.2 c hc

theorem wf_below {m : Memory} (n : Nat) (h : m.wf) : (m.below n).wf := wf_filter _ h

theorem mem_down {m : Memory} {c : Host.Cell} : c ∈ m.down ↔ (c.1 + 1, c.2) ∈ m := by
  obtain ⟨a, v⟩ := c
  simp only [Memory.down, List.mem_filterMap]
  constructor
  · rintro ⟨⟨b, w⟩, hb, h⟩
    split at h
    · cases h
    · rename_i h0
      simp only [Option.some.injEq, Prod.mk.injEq] at h
      obtain ⟨rfl, rfl⟩ := h
      have h0 : b ≠ 0 := h0
      have : b - 1 + 1 = b := by omega
      simpa [this] using hb
  · intro h
    exact ⟨(a + 1, v), h, by simp⟩

theorem wf_down {m : Memory} (h : m.wf) : m.down.wf := by
  refine ⟨?_, fun c hc => h.2 (c.1 + 1, c.2) (mem_down.1 hc)⟩
  refine List.Pairwise.filterMap _ (fun a b hab c hc d hd => ?_) h.1
  simp only [Option.ite_none_left_eq_some, Option.some.injEq] at hc hd
  obtain ⟨ha, rfl⟩ := hc
  obtain ⟨hb, rfl⟩ := hd
  show a.1 - 1 < b.1 - 1
  omega

theorem wf_setRun {m : Memory} (bound start : Nat) (run : List Byte) (h : m.wf) :
    (m.setRun bound start run).wf := by
  induction run generalizing m start with
  | nil => exact h
  | cons b bs ih =>
    refine ih _ ?_
    split
    · exact wf_set _ _ h
    · exact h

/-- The addresses a write lists: those that were there, and the one written. -/
theorem mem_set {m : Memory} {a : Nat} {v : Byte} {c : Host.Cell} (h : c ∈ m.set a v) : c.1 = a ∨ c ∈ m := by
  unfold Memory.set at h
  split at h
  · exact .inr (mem_cellErase.1 h).1
  · rcases mem_cellPut.1 h with rfl | ⟨h, -⟩
    · exact .inl rfl
    · exact .inr h

theorem mem_setRun {m : Memory} {bound start : Nat} {run : List Byte} {c : Host.Cell}
    (h : c ∈ m.setRun bound start run) : c.1 < bound ∨ c ∈ m := by
  induction run generalizing m start with
  | nil => exact .inr h
  | cons b bs ih =>
    rcases ih h with h | h
    · exact .inl h
    · split at h
      · rcases mem_set h with h | h
        · exact .inl (by omega)
        · exact .inr h
      · exact .inr h

/-! ## Columns -/

theorem memRead_of_lt {s : State} {i : Nat} (h : i < s.fbLen) : s.memRead i = .ok (s.fb.get i) := by
  simp [State.memRead, State.column, h]

theorem memRead_of_ge {s : State} {i : Nat} (h : s.fbLen ≤ i) : s.memRead i = .error (.noSuchColumn i) := by
  simp [State.memRead, State.column, Nat.not_lt.2 h]

/-- Everything a read of consecutive columns can do: inside the buffer it answers them. -/
theorem readColumns_ok {s : State} {start count : Nat} (h : count = 0 ∨ start + count ≤ s.fbLen) :
    s.readColumns start count = .ok ((List.range' start count).map s.fb.get) := by
  induction count generalizing start with
  | zero => rfl
  | succ n ih =>
    have h' : start + (n + 1) ≤ s.fbLen := by omega
    have hn : n = 0 ∨ start + 1 + n ≤ s.fbLen := .inr (by omega)
    simp only [State.readColumns, memRead_of_lt (show start < s.fbLen by omega), ih hn]
    simp [List.range'_succ]

/-- A read of consecutive columns that answers was inside the buffer. -/
theorem readColumns_inside {s : State} {start count : Nat} {vs : List Byte}
    (h : s.readColumns start count = .ok vs) : count = 0 ∨ start + count ≤ s.fbLen := by
  induction count generalizing start vs with
  | zero => exact .inl rfl
  | succ n ih =>
    right
    by_cases hs : start < s.fbLen
    · simp only [State.readColumns, memRead_of_lt hs] at h
      cases hr : s.readColumns (start + 1) n with
      | error f => simp [hr] at h
      | ok ws => rcases ih hr with h0 | h0 <;> omega
    · simp [State.readColumns, memRead_of_ge (Nat.not_lt.1 hs)] at h

end Sys2Proof.Machine
end

