-- ==== Sys2Proof/Laws/Ops.lean ====
section
/-! SUPPORT. One spec lemma per shared operation: ending an operation, a transaction, a chip's registers, the fetch. -/

namespace Sys2Proof.Machine

/-! ## Ending an operation -/

theorem raise_next (s : State) (status : Status) :
    s.raise status = .next { s with response := some { status := status, result := none, bus := [] } } := rfl

/-- The response of an operation that appended `bus` to the trace it found. -/
theorem finish_next {s before : State} {bus : List BusEvent} (result : Option OpResult)
    (h : s.trace = before.trace ++ bus) :
    s.finish before result = .next { s with response := some { status := .ok, result := result, bus := bus } } := by
  simp [State.finish, h]

theorem whenConfigured_true {s : State} (run : State → Result) (h : s.configured = true) :
    s.whenConfigured run = run s := by simp [State.whenConfigured, h]

theorem whenConfigured_false {s : State} (run : State → Result) (h : s.configured = false) :
    s.whenConfigured run = s.raise .notConfigured := by simp [State.whenConfigured, h]

/-- Everything a check of `configured` can do. -/
theorem whenConfigured_next {s t : State} {run : State → Result} (h : s.whenConfigured run = .next t) :
    (s.configured = true ∧ run s = .next t) ∨ (s.configured = false ∧ s.raise .notConfigured = .next t) := by
  cases hc : s.configured <;> simp_all [State.whenConfigured]

/-! ## Transactions -/

/-- Writing pairs only appends their bytes to the trace and shifts them into the chain. -/
theorem writePairs_eq (s : State) (pairs : List (Byte × Byte)) :
    pairs.foldl State.writePair s =
      { s with
        trace := s.trace ++ pairs.flatMap fun pair => [.byte pair.1, .byte pair.2]
        chain := pairs.foldl (fun chain pair => (shiftIn (shiftIn chain pair.1).1 pair.2).1) s.chain } := by
  induction pairs generalizing s with
  | nil => simp
  | cons pair pairs ih =>
    rw [List.foldl_cons, ih]
    simp [State.writePair]

/-- The chain after a transaction: the pairs shifted in, then committed by the rising edge. -/
def chainAfter (noop : Byte) (chain : List Chip) (pairs : List (Byte × Byte)) : List Chip :=
  (pairs.foldl (fun chain pair => (shiftIn (shiftIn chain pair.1).1 pair.2).1) chain).map (Chip.commit noop)

/-- Everything a transaction does. -/
theorem transaction_eq (s : State) (pairs : List (Byte × Byte)) :
    s.transaction pairs =
      { s with
        trace := s.trace ++ frame pairs
        latch := .high
        chain := chainAfter s.params.cmdNoop s.chain pairs } := by
  simp [State.transaction, writePairs_eq, State.setLatch, latchChain, frame, chainAfter]

@[simp] theorem length_frame (pairs : List (Byte × Byte)) : (frame pairs).length = 2 * pairs.length + 2 := by
  simp only [frame, List.length_append, List.length_cons, List.length_flatMap, List.length_nil, List.map_const',
    List.sum_replicate, smul_eq_mul]
  omega

/-! ## The chain -/

@[simp] theorem length_shiftIn (chain : List Chip) (v : Byte) : (shiftIn chain v).1.length = chain.length := by
  induction chain with
  | nil => rfl
  | cons chip near ih => simp [shiftIn, ih]

/-- A shifted byte changes no register. -/
@[simp] theorem regs_shiftIn (chain : List Chip) (v : Byte) :
    (shiftIn chain v).1.map Chip.regs = chain.map Chip.regs := by
  induction chain with
  | nil => rfl
  | cons chip near ih => simp [shiftIn, ih]

/-- The bytes the chain holds, the farthest first (`42_chain_encoder.md` R121). -/
def heldBytes (chain : List Chip) : List Byte := chain.flatMap fun chip => [chip.first, chip.second]

@[simp] theorem length_heldBytes (chain : List Chip) : (heldBytes chain).length = 2 * chain.length := by
  simp [heldBytes, List.length_flatMap, Nat.mul_comm]

/-- The chain is one shift register: with the byte that leaves in front, the bytes are those it held and the new one
(`42_chain_encoder.md` R121). -/
theorem heldBytes_shiftIn (chain : List Chip) (v : Byte) :
    (shiftIn chain v).2 :: heldBytes (shiftIn chain v).1 = heldBytes chain ++ [v] := by
  induction chain with
  | nil => rfl
  | cons chip near ih =>
    simp only [heldBytes, List.flatMap_cons] at ih ⊢
    simp [shiftIn, ih]

theorem heldBytes_shiftIn_drop (chain : List Chip) (v : Byte) :
    heldBytes (shiftIn chain v).1 = (heldBytes chain ++ [v]).drop 1 := by
  rw [← heldBytes_shiftIn]
  rfl

/-- The bytes of pairs in slot order. -/
def pairBytes (pairs : List (Byte × Byte)) : List Byte := pairs.flatMap fun pair => [pair.1, pair.2]

@[simp] theorem length_pairBytes (pairs : List (Byte × Byte)) : (pairBytes pairs).length = 2 * pairs.length := by
  simp [pairBytes, List.length_flatMap, Nat.mul_comm]

/-- Pairs shifted in: the chain holds the last bytes of its old content followed by the new bytes. -/
theorem heldBytes_shiftPairs (chain : List Chip) (pairs : List (Byte × Byte)) :
    heldBytes (pairs.foldl (fun chain pair => (shiftIn (shiftIn chain pair.1).1 pair.2).1) chain) =
      (heldBytes chain ++ pairBytes pairs).drop (2 * pairs.length) := by
  induction pairs generalizing chain with
  | nil => simp [pairBytes]
  | cons pair pairs ih =>
    have key : heldBytes (shiftIn (shiftIn chain pair.1).1 pair.2).1 =
        (heldBytes chain ++ [pair.1, pair.2]).drop 2 := by
      rw [heldBytes_shiftIn_drop, heldBytes_shiftIn_drop]
      have h : 1 ≤ (heldBytes chain ++ [pair.1]).length := by simp
      rw [← List.drop_append_of_le_length h, List.drop_drop]
      simp
    rw [List.foldl_cons, ih, key]
    have h : 2 ≤ (heldBytes chain ++ [pair.1, pair.2]).length := by simp
    rw [← List.drop_append_of_le_length h, List.drop_drop]
    congr 1
    · simp only [List.length_cons]; omega
    · simp [pairBytes]

theorem regs_shiftPairs (chain : List Chip) (pairs : List (Byte × Byte)) :
    (pairs.foldl (fun chain pair => (shiftIn (shiftIn chain pair.1).1 pair.2).1) chain).map Chip.regs =
      chain.map Chip.regs := by
  induction pairs generalizing chain with
  | nil => rfl
  | cons pair pairs ih => rw [List.foldl_cons, ih]; simp

@[simp] theorem length_shiftPairs (chain : List Chip) (pairs : List (Byte × Byte)) :
    (pairs.foldl (fun chain pair => (shiftIn (shiftIn chain pair.1).1 pair.2).1) chain).length = chain.length := by
  simpa using congrArg List.length (regs_shiftPairs chain pairs)

@[simp] theorem length_chainAfter (noop : Byte) (chain : List Chip) (pairs : List (Byte × Byte)) :
    (chainAfter noop chain pairs).length = chain.length := by
  simp [chainAfter]

/-- Chips with given held bytes and given registers, chip by chip. -/
theorem chips_eq_zipWith {chain : List Chip} {pairs : List (Byte × Byte)} {regs : List RegFile}
    (hb : heldBytes chain = pairBytes pairs) (hr : chain.map Chip.regs = regs) :
    chain = List.zipWith (fun (pair : Byte × Byte) r => { first := pair.1, second := pair.2, regs := r }) pairs regs := by
  induction chain generalizing pairs regs with
  | nil =>
    cases pairs with
    | nil => rfl
    | cons pair pairs => simp [heldBytes, pairBytes] at hb
  | cons chip chain ih =>
    cases pairs with
    | nil => simp [heldBytes, pairBytes] at hb
    | cons pair pairs =>
      subst hr
      simp only [heldBytes, pairBytes, List.flatMap_cons, List.cons_append, List.nil_append, List.cons.injEq] at hb
      obtain ⟨h1, h2, h3⟩ := hb
      simp only [List.map_cons, List.zipWith_cons_cons]
      rw [← ih h3 rfl, ← h1, ← h2]

/-- After exactly one pair per chip, chip `t` holds the pair of slot `t` and its old registers, and the rising edge makes
it commit that pair (`42_chain_encoder.md` R121, R122). -/
theorem chainAfter_getElem? (noop : Byte) {chain : List Chip} {pairs : List (Byte × Byte)}
    (h : pairs.length = chain.length) (t : Nat) :
    (chainAfter noop chain pairs)[t]? =
      match pairs[t]?, chain[t]? with
      | some pair, some chip =>
        some (Chip.commit noop { first := pair.1, second := pair.2, regs := chip.regs })
      | _, _ => none := by
  have hb : heldBytes (pairs.foldl (fun chain pair => (shiftIn (shiftIn chain pair.1).1 pair.2).1) chain) =
      pairBytes pairs := by
    rw [heldBytes_shiftPairs, h]
    have : 2 * chain.length = (heldBytes chain).length := by simp
    rw [this, List.drop_left]
  rw [chainAfter, chips_eq_zipWith hb (regs_shiftPairs chain pairs)]
  simp only [List.getElem?_map, List.getElem?_zipWith]
  cases pairs[t]? <;> cases chain[t]? <;> rfl

/-! ## Registers of the chips -/

theorem toNat_ne {c e : Byte} (h : e ≠ c) : e.toNat ≠ c.toNat := fun h' => h (BitVec.eq_of_toNat_eq h')

@[simp] theorem written_setReg (chip : Chip) (c d : Byte) : 
    (chip.setReg c d).regs.written = cellPut chip.regs.written c.toNat d := rfl

@[simp] theorem unknowns_setReg (chip : Chip) (c d : Byte) : (chip.setReg c d).regs.unknowns = chip.regs.unknowns := rfl

/-- A register after another, or the same, is written. -/
theorem read_setReg (chip : Chip) (c d : Byte) (i : Nat) (e : Byte) :
    (chip.setReg c d).regs.read i e = if e = c then d else chip.regs.read i e := by
  by_cases h : e = c
  · simp [RegFile.read, h]
  · simp [RegFile.read, h, toNat_ne h]

/-- A chip's registers after it commits a pair. -/
theorem commit_reg (noop : Byte) (chip : Chip) (i : Nat) (e : Byte) :
    (chip.commit noop).regs.read i e =
      if chip.first ≠ noop ∧ e = chip.first then chip.second else chip.regs.read i e := by
  unfold Chip.commit
  by_cases h : chip.first = noop
  · simp [h]
  · simp [h, read_setReg]

/-- A register after a transaction of one pair per chip (`42_chain_encoder.md` R121, R122). -/
theorem transaction_chipReg {s : State} {pairs : List (Byte × Byte)} (h : pairs.length = s.chain.length) (i : Nat)
    (e : Byte) {pair : Byte × Byte} (hp : pairs[i]? = some pair) :
    (s.transaction pairs).chipReg i e =
      if pair.1 ≠ s.params.cmdNoop ∧ e = pair.1 then some pair.2 else s.chipReg i e := by
  have hi : i < s.chain.length := by
    rw [← h]
    exact (List.getElem?_eq_some_iff.1 hp).1
  simp only [State.chipReg, transaction_eq, chainAfter_getElem? _ h, hp, List.getElem?_eq_getElem hi]
  rw [commit_reg]
  split <;> rfl

/-- A chip that the chain does not have has no register after a transaction either. -/
theorem transaction_chipReg_none {s : State} {pairs : List (Byte × Byte)} {i : Nat} (hi : s.chain.length ≤ i)
    (e : Byte) : (s.transaction pairs).chipReg i e = s.chipReg i e := by
  simp [State.chipReg, transaction_eq, hi]

/-- The canonical form of a register file is kept by a commit. -/
theorem commit_registers {noop : Byte} {chip : Chip}
    (h : chip.regs.wf) :
    (chip.commit noop).regs.wf := by
  unfold Chip.commit
  split
  · exact h
  · refine ⟨cellsRising_put _ _ h.1, fun c hc => ?_⟩
    rcases mem_cellPut.1 hc with rfl | ⟨hc, -⟩
    · exact BitVec.isLt _
    · exact h.2 c hc

/-- A register file written by `setReg` keeps its canonical form. -/
theorem setReg_registers {chip : Chip} (c d : Byte) (h : chip.regs.wf) :
    (chip.setReg c d).regs.wf := by
  refine ⟨cellsRising_put _ _ h.1, fun e he => ?_⟩
  rcases mem_cellPut.1 he with rfl | ⟨he, -⟩
  · exact BitVec.isLt _
  · exact h.2 e he

/-- Every chip after a transaction has canonical registers if every chip had before. -/
theorem chainAfter_registers {noop : Byte} {chain : List Chip} (pairs : List (Byte × Byte))
    (h : chainWf chain) : chainWf (chainAfter noop chain pairs) := by
  intro chip hchip
  obtain ⟨held, hheld, rfl⟩ := List.mem_map.1 hchip
  have hr : held.regs ∈ chain.map Chip.regs := by
    rw [← regs_shiftPairs chain pairs]
    exact List.mem_map_of_mem hheld
  obtain ⟨old, hold, he⟩ := List.mem_map.1 hr
  exact commit_registers (he ▸ h old hold)

/-! ## Shift registers of the chips -/

@[simp] theorem commit_pair (noop : Byte) (chip : Chip) :
    ((chip.commit noop).first, (chip.commit noop).second) = (chip.first, chip.second) := by
  unfold Chip.commit
  split <;> rfl

/-- No level of the latch moves a pair (`42_chain_encoder.md` R122). -/
theorem chipPair_setLatch (s : State) (high : Bool) (i : Nat) : (s.setLatch high).chipPair i = s.chipPair i := by
  simp only [State.chipPair, State.setLatch]
  cases high <;> cases s.latch <;> simp [latchChain, Function.comp_def, Chip.forget]

/-- A register written in one chip moves no pair. -/
theorem chipPair_set_setReg (s : State) {chip : Nat} (h : chip < s.chain.length) (c d : Byte) (i : Nat) :
    ({ s with chain := s.chain.set chip (s.chain[chip].setReg c d) } : State).chipPair i = s.chipPair i := by
  by_cases hi : i = chip
  · subst hi
    simp [State.chipPair, h, Chip.setReg]
  · simp [State.chipPair, Ne.symm hi]

/-- A register after one register of one chip is written. -/
theorem chipReg_set_setReg (s : State) {chip : Nat} (h : chip < s.chain.length) (c d : Byte) (i : Nat) (e : Byte) :
    ({ s with chain := s.chain.set chip (s.chain[chip].setReg c d) } : State).chipReg i e =
      if i = chip ∧ e = c then some d else s.chipReg i e := by
  by_cases hi : i = chip
  · subst hi
    by_cases he : e = c <;> simp [State.chipReg, h, read_setReg, he]
  · simp [State.chipReg, hi, Ne.symm hi]

end Sys2Proof.Machine
end

