-- ==== Sys2Proof/Laws/Encoder.lean ====
section
/-! SUPPORT. The spec lemmas of the chain command encoder and of the flush path: what a unicast, the eight columns of a
chip, and a flush of slices do to each field and to the chips' registers. -/

namespace Sys2Proof.Machine

/-! ## The pairs of a transaction -/

@[simp] theorem length_broadcastPairs (p : Params) (n : Nat) (cmd data : Byte) :
    (broadcastPairs p n cmd data).length = n := by simp [broadcastPairs]

@[simp] theorem length_unicastPairs (p : Params) (n : Nat) (cmd data : Byte) (idx : Nat) :
    (unicastPairs p n cmd data idx).length = n := by simp [unicastPairs]

theorem broadcastPairs_getElem? (p : Params) {n t : Nat} (cmd data : Byte) (h : t < n) :
    (broadcastPairs p n cmd data)[t]? = some (cmd, p.wire cmd data) := by
  simp [broadcastPairs, h]

theorem unicastPairs_getElem? (p : Params) {n t : Nat} (cmd data : Byte) (idx : Nat) (h : t < n) :
    (unicastPairs p n cmd data idx)[t]? = some (if t = idx then (cmd, p.wire cmd data) else fillerPair p) := by
  simp [unicastPairs, h]

/-! ## One unicast -/

theorem unicast_of_ge {s : State} {idx : Nat} (cmd data : Byte) (h : s.chipCount ≤ idx) :
    s.unicast cmd data idx = s := by simp [State.unicast, h]

/-- Everything a unicast in range does. -/
theorem unicast_of_lt {s : State} {idx : Nat} (cmd data : Byte) (h : idx < s.chipCount) :
    s.unicast cmd data idx =
      { s with
        trace := s.trace ++ frame (unicastPairs s.params s.chipCount cmd data idx)
        latch := .high
        chain := chainAfter s.params.cmdNoop s.chain (unicastPairs s.params s.chipCount cmd data idx) } := by
  simp [State.unicast, Nat.not_le.2 h, transaction_eq]

/-- The registers of the chips after a unicast in range: only the addressed register can have changed. -/
theorem unicast_chipReg {s : State} (hm : s.ChainMatches) {idx : Nat} (h : idx < s.chipCount) (cmd data : Byte)
    (i : Nat) (c : Byte) :
    (s.unicast cmd data idx).chipReg i c =
      if cmd ≠ s.params.cmdNoop ∧ i = idx ∧ c = cmd then some (s.params.wire cmd data) else s.chipReg i c := by
  have hm : s.chain.length = s.chipCount := hm
  rw [State.unicast, if_neg (Nat.not_le.2 h)]
  by_cases hi : i < s.chipCount
  · rw [transaction_chipReg (by simp [hm]) i c (unicastPairs_getElem? _ cmd data idx hi)]
    by_cases hx : i = idx
    · simp [hx]
    · simp [hx, fillerPair]
  · rw [transaction_chipReg_none (by omega)]
    have : i ≠ idx := by omega
    simp [this]

/-! ## The eight columns of one chip -/

/-- The pairs of the eight transactions that carry the columns `cs` to chip `chip`. -/
def columnTransactions (p : Params) (n chip : Nat) (cs : List Byte) : List (List (Byte × Byte)) :=
  (List.finRange 8).map fun j => unicastPairs p n (p.colCmd j) (cs.getD j.val 0) chip

/-- Unicasts of some columns, in the order of the list: trace, latch and chain change, nothing else. -/
theorem foldl_unicast {s : State} {chip : Nat} (h : chip < s.chipCount) (cs : List Byte) (js : List (Fin 8)) :
    ∃ chain,
      js.foldl (fun s j => s.unicast (s.params.colCmd j) (cs.getD j.val 0) chip) s =
        { s with
          trace := s.trace ++ js.flatMap fun j =>
            frame (unicastPairs s.params s.chipCount (s.params.colCmd j) (cs.getD j.val 0) chip)
          latch := if js.isEmpty then s.latch else .high
          chain := chain } ∧ chain.length = s.chain.length ∧ (chainWf s.chain → chainWf chain) := by
  induction js generalizing s with
  | nil => exact ⟨s.chain, by simp, rfl, id⟩
  | cons j js ih =>
    rw [List.foldl_cons, unicast_of_lt _ _ h]
    obtain ⟨chain, he, hl, hw⟩ := ih (s := { s with
      trace := s.trace ++ frame (unicastPairs s.params s.chipCount (s.params.colCmd j) (cs.getD j.val 0) chip)
      latch := .high
      chain := chainAfter s.params.cmdNoop s.chain
        (unicastPairs s.params s.chipCount (s.params.colCmd j) (cs.getD j.val 0) chip) }) h
    refine ⟨chain, ?_, by simpa using hl, fun hs => hw (chainAfter_registers _ hs)⟩
    rw [he]
    cases js <;> simp

/-- Everything the eight column transactions of one chip do to the block. -/
theorem sendColumns_eq {s : State} {chip : Nat} (h : chip < s.chipCount) (cs : List Byte) :
    ∃ chain,
      s.sendColumns chip cs =
        { s with
          trace := s.trace ++ (columnTransactions s.params s.chipCount chip cs).flatMap frame
          latch := .high
          chain := chain } ∧ chain.length = s.chain.length ∧ (chainWf s.chain → chainWf chain) := by
  obtain ⟨chain, he, hl⟩ := foldl_unicast h cs (List.finRange 8)
  refine ⟨chain, ?_, hl⟩
  rw [State.sendColumns, he]
  simp [columnTransactions, List.finRange_succ]

theorem foldl_unicast_chipReg {s : State} (hp : s.params.Legal) (hm : s.ChainMatches) {chip : Nat}
    (h : chip < s.chipCount) (cs : List Byte) (js : List (Fin 8)) (i : Nat) :
    let t := js.foldl (fun s j => s.unicast (s.params.colCmd j) (cs.getD j.val 0) chip) s
    (∀ j : Fin 8, t.chipReg i (s.params.colCmd j) =
      if i = chip ∧ j ∈ js then some (~~~cs.getD j.val 0) else s.chipReg i (s.params.colCmd j)) ∧
    (∀ c : Byte, s.params.isColumnCmd c = false → t.chipReg i c = s.chipReg i c) := by
  induction js generalizing s with
  | nil => simp
  | cons j js ih =>
    rw [List.foldl_cons]
    have hs := unicast_of_lt (s.params.colCmd j) (cs.getD j.val 0) h
    have hparams : (s.unicast (s.params.colCmd j) (cs.getD j.val 0) chip).params = s.params := by rw [hs]
    have hcount : (s.unicast (s.params.colCmd j) (cs.getD j.val 0) chip).chipCount = s.chipCount := by rw [hs]
    have hm' : (s.unicast (s.params.colCmd j) (cs.getD j.val 0) chip).ChainMatches := by
      rw [hs]
      simpa [State.ChainMatches] using hm
    have ih := ih (s := s.unicast (s.params.colCmd j) (cs.getD j.val 0) chip) (by rw [hparams]; exact hp) hm'
      (by rw [hcount]; exact h)
    simp only [hparams] at ih ⊢
    obtain ⟨ih1, ih2⟩ := ih
    refine ⟨fun k => ?_, fun c hc => ?_⟩
    · rw [ih1 k, unicast_chipReg hm h]
      by_cases hk : k = j
      · subst hk
        by_cases hi : i = chip <;> by_cases hj : k ∈ js <;> simp [hi, hj, colCmd_ne_noop hp, wire_colCmd]
      · have hne : s.params.colCmd k ≠ s.params.colCmd j := fun he => hk (colCmd_inj hp he)
        simp [hk, hne]
    · rw [ih2 c hc, unicast_chipReg hm h]
      have hne : c ≠ s.params.colCmd j := by
        rintro rfl
        simp at hc
      simp [hne]

/-- The registers of the chips after the eight column transactions of one chip. -/
theorem sendColumns_chipReg {s : State} (hp : s.params.Legal) (hm : s.ChainMatches) {chip : Nat}
    (h : chip < s.chipCount) (cs : List Byte) (i : Nat) :
    (∀ j : Fin 8, (s.sendColumns chip cs).chipReg i (s.params.colCmd j) =
      if i = chip then some (~~~cs.getD j.val 0) else s.chipReg i (s.params.colCmd j)) ∧
    (∀ c : Byte, s.params.isColumnCmd c = false → (s.sendColumns chip cs).chipReg i c = s.chipReg i c) := by
  have := foldl_unicast_chipReg hp hm h cs (List.finRange 8) i
  simpa [State.sendColumns] using this

/-! ## Slices -/

theorem sliceToChipIndex_lt {slice n : Nat} (h : slice < n) (reversed : Bool) :
    sliceToChipIndex slice n reversed < n := by
  unfold sliceToChipIndex
  split <;> omega

/-- The mapping sends different slices to different chips. -/
theorem sliceToChipIndex_inj {a b n : Nat} (ha : a < n) (hb : b < n) (reversed : Bool)
    (h : sliceToChipIndex a n reversed = sliceToChipIndex b n reversed) : a = b := by
  unfold sliceToChipIndex at h
  split at h <;> omega

/-- The rotated columns of one slice of the window. -/
def sliceColumns (s : State) (slice : Nat) : List Byte :=
  cols (rotate (mat ((List.range' (8 + 8 * slice) 8).map s.fb.get)) s.rotation)

/-- One slice inside the buffer is the eight column transactions of its chip. -/
theorem flushSlice_ok {s : State} {slice : Nat} (h : 16 + 8 * slice ≤ s.fbLen) :
    s.flushSlice slice =
      .ok (s.sendColumns (sliceToChipIndex slice s.chipCount s.reversed) (sliceColumns s slice)) := by
  simp [State.flushSlice, readColumns_ok (s := s) (start := 8 + 8 * slice) (count := 8) (.inr (by omega)), sliceColumns]

/-- A flush that answers read every slice inside the buffer. -/
theorem flushSlices_inside {s t : State} {slice count : Nat} (hn : slice + count ≤ s.chipCount)
    (h : s.flushSlices slice count = .ok t) : count = 0 ∨ 8 + 8 * (slice + count) ≤ s.fbLen := by
  induction count generalizing s slice with
  | zero => exact .inl rfl
  | succ n ih =>
    right
    rw [State.flushSlices] at h
    cases hr : s.readColumns (8 + 8 * slice) 8 with
    | error f => simp [State.flushSlice, hr] at h
    | ok cs =>
      have h0 := readColumns_inside hr
      obtain ⟨chain1, h1, -⟩ := sendColumns_eq (s := s)
        (sliceToChipIndex_lt (show slice < s.chipCount by omega) s.reversed) (cols (rotate (mat cs) s.rotation))
      simp only [State.flushSlice, hr, h1] at h
      have := ih (by show slice + 1 + n ≤ s.chipCount; omega) h
      simp only at this
      omega

/-- Everything a flush of `count` slices does to the block. -/
theorem flushSlices_ok {s : State} {slice count : Nat} (hn : slice + count ≤ s.chipCount)
    (h : 8 + 8 * (slice + count) ≤ s.fbLen) :
    ∃ chain,
      s.flushSlices slice count =
        .ok { s with
          trace := s.trace ++ ((List.range' slice count).flatMap fun k =>
            columnTransactions s.params s.chipCount (sliceToChipIndex k s.chipCount s.reversed)
              (sliceColumns s k)).flatMap frame
          latch := if count = 0 then s.latch else .high
          chain := chain } ∧ chain.length = s.chain.length ∧ (chainWf s.chain → chainWf chain) := by
  induction count generalizing s slice with
  | zero => exact ⟨s.chain, by simp [State.flushSlices], rfl, id⟩
  | succ n ih =>
    obtain ⟨chain1, h1, hl1, hw1⟩ := sendColumns_eq (s := s)
      (sliceToChipIndex_lt (show slice < s.chipCount by omega) s.reversed) (sliceColumns s slice)
    rw [State.flushSlices, flushSlice_ok (by omega), h1]
    obtain ⟨chain, he, hl, hw⟩ := ih (slice := slice + 1) (s := { s with
      trace := s.trace ++ (columnTransactions s.params s.chipCount
        (sliceToChipIndex slice s.chipCount s.reversed) (sliceColumns s slice)).flatMap frame
      latch := .high
      chain := chain1 }) (by simp; omega) (by simp; omega)
    refine ⟨chain, ?_, by simpa [hl1] using hl, fun hs => hw (hw1 hs)⟩
    simp only at he ⊢
    rw [he]
    simp [List.range'_succ, sliceColumns]

/-- The registers of the chips after a flush of `count` slices. -/
theorem flushSlices_chipReg {s t : State} (hp : s.params.Legal) (hm : s.ChainMatches) {slice count : Nat}
    (hn : slice + count ≤ s.chipCount) (h : 8 + 8 * (slice + count) ≤ s.fbLen)
    (ht : s.flushSlices slice count = .ok t) :
    (∀ k, slice ≤ k → k < slice + count → ∀ j : Fin 8,
      t.chipReg (sliceToChipIndex k s.chipCount s.reversed) (s.params.colCmd j) =
        some (~~~(sliceColumns s k).getD j.val 0)) ∧
    (∀ i, (∀ k, slice ≤ k → k < slice + count → sliceToChipIndex k s.chipCount s.reversed ≠ i) →
      ∀ c, t.chipReg i c = s.chipReg i c) ∧
    (∀ i c, s.params.isColumnCmd c = false → t.chipReg i c = s.chipReg i c) := by
  induction count generalizing s slice with
  | zero =>
    simp only [State.flushSlices, Except.ok.injEq] at ht
    subst ht
    exact ⟨fun k h1 h2 => by omega, fun _ _ _ => rfl, fun _ _ _ => rfl⟩
  | succ n ih =>
    have hlt : slice < s.chipCount := by omega
    have hchip := sliceToChipIndex_lt hlt s.reversed
    rw [State.flushSlices, flushSlice_ok (by omega)] at ht
    simp only at ht
    obtain ⟨chain1, h1, hl1, -⟩ := sendColumns_eq hchip (sliceColumns s slice)
    have hreg := sendColumns_chipReg hp hm hchip (sliceColumns s slice)
    generalize hs' : s.sendColumns (sliceToChipIndex slice s.chipCount s.reversed) (sliceColumns s slice) = s' at *
    have e1 : s'.params = s.params := by rw [h1]
    have e2 : s'.chipCount = s.chipCount := by rw [h1]
    have e3 : s'.reversed = s.reversed := by rw [h1]
    have e4 : s'.fbLen = s.fbLen := by rw [h1]
    have e5 : ∀ k, sliceColumns s' k = sliceColumns s k := by rw [h1]; exact fun _ => rfl
    have hm' : s'.ChainMatches := by
      rw [h1]
      simpa [State.ChainMatches, hl1] using hm
    have ih := ih (slice := slice + 1) (e1 ▸ hp) hm' (by omega) (by omega) ht
    simp only [e1, e2, e3, e5] at ih
    obtain ⟨ih1, ih2, ih3⟩ := ih
    refine ⟨fun k hk1 hk2 j => ?_, fun i hi c => ?_, fun i c hc => ?_⟩
    · by_cases hk : k = slice
      · subst hk
        rw [ih2 _ (fun k' h1 h2 he => by
          have := sliceToChipIndex_inj (show k' < s.chipCount by omega) hlt s.reversed he
          omega)]
        simpa using (hreg (sliceToChipIndex k s.chipCount s.reversed)).1 j
      · exact ih1 k (by omega) (by omega) j
    · rw [ih2 i (fun k h1 h2 => hi k (by omega) (by omega))]
      have hne : i ≠ sliceToChipIndex slice s.chipCount s.reversed := fun he => hi slice (by omega) (by omega) he.symm
      by_cases hc : s.params.isColumnCmd c = true
      · obtain ⟨j, rfl⟩ := (isColumnCmd_iff _ _).1 hc
        simpa [hne] using (hreg i).1 j
      · exact (hreg i).2 c (by simpa using hc)
    · rw [ih3 i c hc]
      exact (hreg i).2 c hc

/-! ## The kept response has no influence -/

theorem transaction_response (s : State) (r : Option Response) (pairs : List (Byte × Byte)) :
    ({ s with response := r } : State).transaction pairs = { s.transaction pairs with response := r } := by
  simp only [transaction_eq]

theorem unicast_response (s : State) (r : Option Response) (cmd data : Byte) (idx : Nat) :
    ({ s with response := r } : State).unicast cmd data idx = { s.unicast cmd data idx with response := r } := by
  unfold State.unicast
  simp only [transaction_response]
  split <;> rfl

theorem sendColumns_response (s : State) (r : Option Response) (chip : Nat) (cs : List Byte) :
    ({ s with response := r } : State).sendColumns chip cs = { s.sendColumns chip cs with response := r } := by
  unfold State.sendColumns
  generalize List.finRange 8 = js
  induction js generalizing s with
  | nil => rfl
  | cons j js ih => rw [List.foldl_cons, unicast_response, ih, List.foldl_cons]

theorem readColumns_response (s : State) (r : Option Response) (start count : Nat) :
    ({ s with response := r } : State).readColumns start count = s.readColumns start count := by
  induction count generalizing start with
  | zero => rfl
  | succ count ih => simp only [State.readColumns, ih]; rfl

theorem flushSlices_response (s : State) (r : Option Response) (slice count : Nat) :
    ({ s with response := r } : State).flushSlices slice count =
      (s.flushSlices slice count).map fun t => { t with response := r } := by
  induction count generalizing s slice with
  | zero => rfl
  | succ count ih =>
    have h : ({ s with response := r } : State).flushSlice slice =
        (s.flushSlice slice).map fun t => { t with response := r } := by
      simp only [State.flushSlice, readColumns_response, sendColumns_response]
      split <;> rfl
    rw [State.flushSlices, State.flushSlices, h]
    cases s.flushSlice slice with
    | error f => rfl
    | ok t => exact ih t (slice + 1)

end Sys2Proof.Machine
end

