-- ==== Sys2Proof/Laws/Exec.lean ====
section
/-! SUPPORT. Said once: everything an instruction can do when it answers a next state. Every frame and every invariant
follows from these five kinds of effect. -/

namespace Sys2Proof.Machine

/-- The kinds of next state that `exec i s` can answer. -/
inductive Effect (i : Instr) (s : State) : State → Prop where
  /-- Only the response is written: a status other than OK, a matrix, a window, a unicast out of range. -/
  | answer (r : Response) (hc : isCommand i = true) (hb : r.bus = []) (hr : r.status = .ok ∨ r.result = none) :
      Effect i s { s with response := some r }
  /-- A successful CONFIGURE. -/
  | configure (n : Nat) (rot : Rotation) (rev : Bool) (hi : i = .configure n rot rev) (h1 : 1 ≤ n)
      (h2 : n ≤ s.params.nmax) :
      Effect i s { State.growTo { s with chipCount := n, rotation := rot, reversed := rev, configured := true }
        ((n + 2) * 8) with response := some { status := .ok, result := none, bus := [] } }
  /-- FBCLR, FBWR, FBSHL: the columns change and the memory stays canonical. -/
  | columns (fb : Memory) (hi : i = .fbclr ∨ (∃ off run, i = .fbwr off run) ∨ i = .fbshl)
      (hw : s.fb.wf → fb.wf) (hb : (∀ c ∈ s.fb, c.1 < s.fbLen) → ∀ c ∈ fb, c.1 < s.fbLen) :
      Effect i s { s with fb := fb, response := some { status := .ok, result := none, bus := [] } }
  /-- BCAST, UCAST, FLUSH: whole transactions of `chipCount` pairs. -/
  | bus (transactions : List (List (Byte × Byte))) (chain : List Chip)
      (hi : (∃ cmd data, i = .bcast cmd data) ∨ (∃ cmd data idx, i = .ucast cmd data idx) ∨ i = .flush)
      (hl : ∀ pairs ∈ transactions, pairs.length = s.chipCount) (hc : chain.length = s.chain.length)
      (hw : chainWf s.chain → chainWf chain) :
      Effect i s { s with
        trace := s.trace ++ transactions.flatMap frame
        latch := if transactions.isEmpty then s.latch else .high
        chain := chain
        response := some { status := .ok, result := none, bus := transactions.flatMap frame } }
  /-- A wire pair: one chip changes. -/
  | chips (chain : List Chip) (hi : isCommand i = false) (hc : chain.length = s.chain.length)
      (hw : chainWf s.chain → chainWf chain) : Effect i s { s with chain := chain }

theorem raise_effect {i : Instr} {s t : State} {status : Status} (hc : isCommand i = true)
    (h : s.raise status = .next t) : Effect i s t := by
  cases h
  exact .answer _ hc rfl (.inr rfl)

theorem finish_effect {i : Instr} {s t : State} {result : Option OpResult} (hc : isCommand i = true)
    (h : s.finish s result = .next t) : Effect i s t := by
  rw [finish_next (bus := []) _ (by simp)] at h
  cases h
  exact .answer _ hc rfl (.inl rfl)

theorem onChip_effect {i : Instr} {s t : State} {chip : Nat} {f : Chip → Chip} (hi : isCommand i = false)
    (hf : ∀ ch, ch.regs.wf → (f ch).regs.wf)
    (h : s.onChip chip f = .next t) : Effect i s t := by
  unfold State.onChip at h
  split at h
  · cases h
  · rename_i ch hch
    cases h
    refine .chips _ hi (by simp) fun hs d hd => ?_
    rcases List.mem_or_eq_of_mem_set hd with hd | rfl
    · exact hs d hd
    · exact hf ch (hs ch (List.mem_of_getElem? hch))

theorem receiveColumn_effect {i : Instr} {s t : State} {chip : Nat} {j : Fin 8} {d : Byte}
    (hi : isCommand i = false) (h : s.receiveColumn chip j d = .next t) : Effect i s t :=
  onChip_effect hi (fun _ => setReg_registers _ _) h

theorem mem_down_lt {m : Memory} {n : Nat} (h : ∀ c ∈ m, c.1 < n) : ∀ c ∈ m.down, c.1 < n :=
  fun _ hc => Nat.lt_of_succ_lt (h _ (mem_down.1 hc))

/-- Everything an instruction can do when it answers a next state. -/
theorem exec_effect {i : Instr} {s t : State} (h : exec i s = .next t) : Effect i s t := by
  cases i with
  | configure n rot rev =>
    simp only [exec, execConfigure] at h
    split at h
    · exact raise_effect rfl h
    · rename_i hb
      simp only [badChipCount, Bool.or_eq_true, decide_eq_true_eq, not_or, not_lt] at hb
      rw [finish_next (bus := []) _ (by simp)] at h
      cases h
      exact .configure n rot rev rfl hb.1 hb.2
  | bcast cmd data =>
    simp only [exec, execBcast] at h
    rcases whenConfigured_next h with ⟨-, h⟩ | ⟨-, h⟩
    · simp only [transaction_eq] at h
      rw [finish_next _ rfl] at h
      cases h
      simpa using Effect.bus (i := .bcast cmd data) (s := s) [broadcastPairs s.params s.chipCount cmd data]
        (chainAfter s.params.cmdNoop s.chain (broadcastPairs s.params s.chipCount cmd data)) (.inl ⟨cmd, data, rfl⟩)
        (by simp) (by simp) (chainAfter_registers _)
    · exact raise_effect rfl h
  | ucast cmd data idx =>
    simp only [exec, execUcast] at h
    rcases whenConfigured_next h with ⟨-, h⟩ | ⟨-, h⟩
    · by_cases hi : s.chipCount ≤ idx
      · rw [unicast_of_ge _ _ hi] at h
        exact finish_effect rfl h
      · simp only [unicast_of_lt cmd data (Nat.not_le.1 hi)] at h
        rw [finish_next _ rfl] at h
        cases h
        simpa using Effect.bus (i := .ucast cmd data idx) (s := s) [unicastPairs s.params s.chipCount cmd data idx]
          (chainAfter s.params.cmdNoop s.chain (unicastPairs s.params s.chipCount cmd data idx))
          (.inr (.inl ⟨cmd, data, idx, rfl⟩)) (by simp) (by simp) (chainAfter_registers _)
    · exact raise_effect rfl h
  | mrot m dir => exact finish_effect rfl h
  | mflip m axis =>
    cases axis with
    | none => exact finish_effect rfl h
    | horizontal => exact finish_effect rfl h
    | vertical => exact finish_effect rfl h
    | reserved => exact raise_effect rfl h
  | mshift m dx dy => exact finish_effect rfl h
  | minv m => exact finish_effect rfl h
  | fbclr =>
    simp only [exec, execFbclr] at h
    rcases whenConfigured_next h with ⟨-, h⟩ | ⟨-, h⟩
    · rw [finish_next (bus := []) _ (by simp)] at h
      cases h
      exact .columns _ (.inl rfl) (fun _ => wf_nil) (by simp)
    · exact raise_effect rfl h
  | fbwr off run =>
    simp only [exec, execFbwr] at h
    rcases whenConfigured_next h with ⟨-, h⟩ | ⟨-, h⟩
    · rw [finish_next (bus := []) _ (by simp)] at h
      cases h
      exact .columns _ (.inr (.inl ⟨off, run, rfl⟩)) (wf_setRun _ _ _)
        fun hb c hc => (mem_setRun hc).elim id (hb c)
    · exact raise_effect rfl h
  | fbshl =>
    simp only [exec, execFbshl] at h
    rcases whenConfigured_next h with ⟨-, h⟩ | ⟨-, h⟩
    · split at h
      · cases h
      · rename_i hl
        rw [finish_next (bus := []) _ (by simp)] at h
        cases h
        refine .columns (s.fb.down.set (s.fbLen - 1) 0) (.inr (.inr rfl)) (fun hw => wf_set _ _ (wf_down hw)) fun hb c hc => ?_
        rcases mem_set hc with hc | hc
        · omega
        · exact mem_down_lt hb c hc
    · exact raise_effect rfl h
  | fbrdw =>
    simp only [exec, execFbrdw] at h
    rcases whenConfigured_next h with ⟨-, h⟩ | ⟨-, h⟩
    · split at h
      · exact finish_effect rfl h
      · cases h
    · exact raise_effect rfl h
  | flush =>
    simp only [exec, execFlush] at h
    rcases whenConfigured_next h with ⟨-, h⟩ | ⟨-, h⟩
    · split at h
      · rename_i s' hs'
        by_cases hn : s.chipCount = 0
        · rw [hn] at hs'
          cases hs'
          exact finish_effect rfl h
        · have hin := flushSlices_inside (by omega) hs'
          obtain ⟨chain, he, hl, hw⟩ := flushSlices_ok (s := s) (slice := 0) (count := s.chipCount) (by omega) (by omega)
          rw [he] at hs'
          cases hs'
          rw [finish_next _ rfl] at h
          cases h
          have hne : ((List.range' 0 s.chipCount).flatMap fun k =>
              columnTransactions s.params s.chipCount (sliceToChipIndex k s.chipCount s.reversed)
                (sliceColumns s k)).isEmpty = false := by
            obtain ⟨n, hn'⟩ := Nat.exists_eq_succ_of_ne_zero hn
            simp [hn', List.range'_succ, columnTransactions, List.finRange_succ]
          simpa [hne, hn] using Effect.bus (i := .flush) (s := s)
            ((List.range' 0 s.chipCount).flatMap fun k =>
              columnTransactions s.params s.chipCount (sliceToChipIndex k s.chipCount s.reversed) (sliceColumns s k))
            chain (.inr (.inr rfl)) (by simp [columnTransactions]; rintro _ _ _ _ rfl; simp) hl hw
      · cases h
    · exact raise_effect rfl h
  | reserved0000 => exact raise_effect rfl h
  | reserved1101 => exact raise_effect rfl h
  | reserved1110 => exact raise_effect rfl h
  | reserved1111 => exact raise_effect rfl h
  | wireNoop chip d => exact onChip_effect rfl (fun _ => id) h
  | wireCol0 chip d => exact receiveColumn_effect rfl h
  | wireCol1 chip d => exact receiveColumn_effect rfl h
  | wireCol2 chip d => exact receiveColumn_effect rfl h
  | wireCol3 chip d => exact receiveColumn_effect rfl h
  | wireCol4 chip d => exact receiveColumn_effect rfl h
  | wireCol5 chip d => exact receiveColumn_effect rfl h
  | wireCol6 chip d => exact receiveColumn_effect rfl h
  | wireCol7 chip d => exact receiveColumn_effect rfl h
  | wireOther chip c d => exact onChip_effect rfl (fun _ => setReg_registers _ _) h

/-- Everything a step can do when it answers a next state: nothing is presented and the state stays, or the oldest
presentation is run. -/
theorem step_cases {s t : State} (h : step s = .next t) :
    (s.inbox = [] ∧ t = s) ∨
      ∃ i rest, (∃ q, s.inbox = q :: rest) ∧ exec i { s with inbox := rest } = .next t := by
  unfold step State.fetch at h
  split at h
  · rename_i hf
    cases h
    split at hf
    · exact .inl ⟨by assumption, rfl⟩
    · split at hf <;> cases hf
    · split at hf
      · cases hf
      · split at hf <;> cases hf
  · rename_i i s' hf
    right
    split at hf
    · cases hf
    · rename_i q rest hq
      split at hf
      · cases hf
        exact ⟨i, rest, ⟨_, hq⟩, h⟩
      · cases hf
    · rename_i c rest hq
      split at hf
      · cases hf
      · split at hf
        · cases hf
          exact ⟨i, rest, ⟨_, hq⟩, h⟩
        · cases hf
  · cases h
  · cases h

end Sys2Proof.Machine
end

