-- ==== Sys2Proof/Laws/PerInstr.lean ====
section
/-! SUPPORT. The statements made of every instruction, one lemma per constructor. PortsFit: the encoding of a
well-formed instruction is one that the ports can carry (`30_encoding.md` R61). -/

namespace Sys2Proof.Laws.PortsFit

/-- The encoding of `i` can be presented. -/
def Statement (i : Instr) : Prop := ∀ p : Params, i.wf p = true → (encode p i).Fits p

/-- Ports whose parametric operands are all 0 can be presented. -/
theorem fits_plain {p : Params} {q : Ports} (h1 : q.n = 0) (h2 : q.idx = 0) (h3 : q.dx = 0) (h4 : q.dy = 0)
    (h5 : q.off = 0) (h6 : q.len = 0) (h7 : q.run = []) : q.Fits p := by
  simp [Ports.Fits, h1, h2, h3, h4, h5, h6, h7]

theorem configure (n : Nat) (rot : Rotation) (rev : Bool) : Statement (.configure n rot rev) := by
  intro p h
  simpa [encode, Encoded.Fits, Ports.Fits, Instr.wf, fitsUnsigned, Nat.two_pow_pos] using h

theorem bcast (cmd data : Byte) : Statement (.bcast cmd data) := fun _ _ => fits_plain rfl rfl rfl rfl rfl rfl rfl

theorem ucast (cmd data : Byte) (idx : Nat) : Statement (.ucast cmd data idx) := by
  intro p h
  simpa [encode, Encoded.Fits, Ports.Fits, Instr.wf, fitsUnsigned, Nat.two_pow_pos] using h

theorem mrot (m : Matrix8x8) (dir : Rotation) : Statement (.mrot m dir) :=
  fun _ _ => fits_plain rfl rfl rfl rfl rfl rfl rfl

theorem mflip (m : Matrix8x8) (axis : Axis) : Statement (.mflip m axis) :=
  fun _ _ => fits_plain rfl rfl rfl rfl rfl rfl rfl

theorem mshift (m : Matrix8x8) (dx dy : Int) : Statement (.mshift m dx dy) := by
  intro p _
  simp [encode, Encoded.Fits, Ports.Fits, rawOfInt_lt]

theorem minv (m : Matrix8x8) : Statement (.minv m) := fun _ _ => fits_plain rfl rfl rfl rfl rfl rfl rfl

theorem fbclr : Statement .fbclr := fun _ _ => fits_plain rfl rfl rfl rfl rfl rfl rfl

theorem fbwr (off : Int) (run : List Byte) : Statement (.fbwr off run) := by
  intro p h
  simp only [Instr.wf, Bool.and_eq_true, decide_eq_true_eq] at h
  simp [encode, Encoded.Fits, Ports.Fits, rawOfInt_lt, h.2]

theorem fbshl : Statement .fbshl := fun _ _ => fits_plain rfl rfl rfl rfl rfl rfl rfl
theorem fbrdw : Statement .fbrdw := fun _ _ => fits_plain rfl rfl rfl rfl rfl rfl rfl
theorem flush : Statement .flush := fun _ _ => fits_plain rfl rfl rfl rfl rfl rfl rfl
theorem reserved0000 : Statement .reserved0000 := fun _ _ => fits_plain rfl rfl rfl rfl rfl rfl rfl
theorem reserved1101 : Statement .reserved1101 := fun _ _ => fits_plain rfl rfl rfl rfl rfl rfl rfl
theorem reserved1110 : Statement .reserved1110 := fun _ _ => fits_plain rfl rfl rfl rfl rfl rfl rfl
theorem reserved1111 : Statement .reserved1111 := fun _ _ => fits_plain rfl rfl rfl rfl rfl rfl rfl
theorem wireNoop (chip : Nat) (d : Byte) : Statement (.wireNoop chip d) := fun _ _ => trivial
theorem wireCol0 (chip : Nat) (d : Byte) : Statement (.wireCol0 chip d) := fun _ _ => trivial
theorem wireCol1 (chip : Nat) (d : Byte) : Statement (.wireCol1 chip d) := fun _ _ => trivial
theorem wireCol2 (chip : Nat) (d : Byte) : Statement (.wireCol2 chip d) := fun _ _ => trivial
theorem wireCol3 (chip : Nat) (d : Byte) : Statement (.wireCol3 chip d) := fun _ _ => trivial
theorem wireCol4 (chip : Nat) (d : Byte) : Statement (.wireCol4 chip d) := fun _ _ => trivial
theorem wireCol5 (chip : Nat) (d : Byte) : Statement (.wireCol5 chip d) := fun _ _ => trivial
theorem wireCol6 (chip : Nat) (d : Byte) : Statement (.wireCol6 chip d) := fun _ _ => trivial
theorem wireCol7 (chip : Nat) (d : Byte) : Statement (.wireCol7 chip d) := fun _ _ => trivial
theorem wireOther (chip : Nat) (c d : Byte) : Statement (.wireOther chip c d) := fun _ _ => trivial

end Sys2Proof.Laws.PortsFit
end

