-- ==== Sys2Proof/Laws/Run.lean ====
section
/-! SUPPORT. The spec lemmas of lists of operations, and of the operations that the host sequences repeat, by what they
leave in the configuration and in the columns. -/

namespace Sys2Proof.Machine

theorem runAll_append {as : List Instr} {s t : State} (bs : List Instr) (h : runAll as s = .next t) :
    runAll (as ++ bs) s = runAll bs t := by
  induction as generalizing s with
  | nil =>
    cases h
    rfl
  | cons a as ih =>
    simp only [runAll, List.cons_append] at h ⊢
    cases he : exec a s with
    | next u =>
      rw [he] at h
      exact ih h
    | fault f =>
      rw [he] at h
      cases h
    | refused r =>
      rw [he] at h
      cases h

@[simp] theorem operationsOf_op (i : Instr) (as : List HostAction) :
    operationsOf (.op i :: as) = i :: operationsOf as := rfl

@[simp] theorem operationsOf_delay (ms : Nat) (as : List HostAction) :
    operationsOf (.delay ms :: as) = operationsOf as := rfl

/-- A configured BCAST is one transaction and its response. -/
theorem exec_bcast_next {s : State} (h : s.configured = true) (cmd data : Byte) :
    exec (.bcast cmd data) s =
      .next { s.transaction (broadcastPairs s.params s.chipCount cmd data) with
        response := some
          { status := .ok, result := none, bus := frame (broadcastPairs s.params s.chipCount cmd data) } } := by
  simp only [exec, execBcast, whenConfigured_true _ h, transaction_eq]
  rw [finish_next _ rfl]

/-- FLUSH completes and leaves configuration and columns. -/
theorem exec_flush_next {s : State} (h : s.configured = true) (hl : 8 * s.chipCount + 8 ≤ s.fbLen) :
    ∃ t, exec .flush s = .next t ∧ t.configured = s.configured ∧ t.chipCount = s.chipCount ∧
      t.fbLen = s.fbLen ∧ t.fb = s.fb := by
  obtain ⟨chain, he, -, -⟩ := flushSlices_ok (s := s) (slice := 0) (count := s.chipCount) (by omega) (by omega)
  simp only [exec, execFlush, whenConfigured_true _ h, he, State.finish]
  exact ⟨_, rfl, rfl, rfl, rfl, rfl⟩

/-- FBSHL completes, leaves the configuration, and moves every column one index down. -/
theorem exec_fbshl_next {s : State} (h : s.configured = true) (hl : 0 < s.fbLen) :
    ∃ t, exec .fbshl s = .next t ∧ t.configured = s.configured ∧ t.chipCount = s.chipCount ∧ t.fbLen = s.fbLen ∧
      ∀ i < s.fbLen, t.fb.get i = if i + 1 < s.fbLen then s.fb.get (i + 1) else 0x00 := by
  simp only [exec, execFbshl, whenConfigured_true _ h, if_neg (Nat.ne_of_gt hl), State.finish]
  refine ⟨_, rfl, rfl, rfl, rfl, fun i hi => ?_⟩
  simp only [get_set, get_down]
  split_ifs <;> first | rfl | omega

end Sys2Proof.Machine
end

