-- ==== Sys2Proof/Tests/Slice0.lean ====
section
/-! SUPPORT. Tests: words written out from the encoding tables of `30_encoding.md`, the test vectors of
`95_test_vectors.md` (cited by their ids), and states that meet the hypotheses of the obligations. -/

namespace Sys2Proof.Tests

open Sys2Proof Sys2Proof.Machine

/-! ## WellFormed refuses each kind of ill-formed term (widths of `30_encoding.md` R61) -/

theorem test_wf_configure_n : (Instr.configure 65536 .none false).wf Config.params = false := by decide
theorem test_wf_ucast_idx : (Instr.ucast 0x01 0x00 65536).wf Config.params = false := by decide
theorem test_wf_mshift_dx : (Instr.mshift 0 2147483648 0).wf Config.params = false := by decide
theorem test_wf_mshift_dy : (Instr.mshift 0 0 (-2147483649)).wf Config.params = false := by decide
theorem test_wf_fbwr_off : (Instr.fbwr 2147483648 []).wf Config.params = false := by decide
theorem test_wf_fbwr_run : (Instr.fbwr 0 [1, 2]).wf { Config.params with runMax := 1 } = false := by decide
theorem test_wf_wireOther_noop : (Instr.wireOther 0 0x00 0x55).wf Config.params = false := by decide
theorem test_wf_wireOther_column : (Instr.wireOther 0 0x08 0x55).wf Config.params = false := by decide
theorem test_wf_bounds :
    ∀ i ∈ [Instr.configure 65535 .half true, .ucast 0x01 0x00 65535, .mshift 0 (-2147483648) 2147483647,
      .fbwr (-2147483648) [], .wireOther 0 0x09 0x55], i.wf Config.params = true := by decide

/-! ## Decoding: op_sel codes of `30_encoding.md` R60, operand codes of R62, extension of R67 -/

/-- The operation the ports name under the parameters of reset. -/
def read (q : Ports) : Option Instr := (decode Config.params (.command q)).toOption

/-- The class of the pair `{c, d}` at chip 3 (`30_encoding.md` R64). -/
def readPair (word : BitVec 16) : Option Instr := (decode Config.params (.pair 3 word)).toOption

theorem test_decode_configure :
    read { opSel := 0b0001, n := 8, rot := 0b11, rev := 1 } = some (.configure 8 .half true) := by decide
theorem test_decode_configure_rotations :
    read { opSel := 0b0001, n := 1, rot := 0b00 } = some (.configure 1 .none false) ∧
    read { opSel := 0b0001, n := 1, rot := 0b01 } = some (.configure 1 .cw90 false) ∧
    read { opSel := 0b0001, n := 1, rot := 0b10 } = some (.configure 1 .ccw90 false) := by decide
theorem test_decode_bcast : read { opSel := 0b0010, cmd := 0x0A, data := 0x08 } = some (.bcast 0x0A 0x08) := by decide
theorem test_decode_ucast :
    read { opSel := 0b0011, cmd := 0x01, data := 0x81, idx := 200 } = some (.ucast 0x01 0x81 200) := by decide
theorem test_decode_mrot :
    read { opSel := 0b0100, m := 0x010909FF, dir := 0b10 } = some (.mrot 0x010909FF .ccw90) := by decide
theorem test_decode_mflip :
    read { opSel := 0b0101, m := 0x010909FF, axis := 0b01 } = some (.mflip 0x010909FF .horizontal) ∧
    read { opSel := 0b0101, m := 0x010909FF, axis := 0b11 } = some (.mflip 0x010909FF .reserved) := by decide
theorem test_decode_mshift :
    read { opSel := 0b0110, m := 5, dx := 0xFFFFFFFF, dy := 3 } = some (.mshift 5 (-1) 3) := by decide
theorem test_decode_minv : read { opSel := 0b0111, m := 0x80 } = some (.minv 0x80) := by decide
theorem test_decode_fbclr : read { opSel := 0b1000 } = some .fbclr := by decide
theorem test_decode_fbwr :
    read { opSel := 0b1001, off := 0xFFFFFFF8, len := 3, run := [1, 2, 3] } = some (.fbwr (-8) [1, 2, 3]) ∧
    read { opSel := 0b1001, off := 0x7FFFFFFF, len := 0, run := [] } = some (.fbwr 2147483647 []) := by decide
theorem test_decode_fbwr_incomplete :
    decode Config.params (.command { opSel := 0b1001, len := 2, run := [7] }) = .error (.incompleteBurst 2 1) := by
  decide
theorem test_decode_fbshl : read { opSel := 0b1010 } = some .fbshl := by decide
theorem test_decode_fbrdw : read { opSel := 0b1011 } = some .fbrdw := by decide
theorem test_decode_flush : read { opSel := 0b1100 } = some .flush := by decide
theorem test_decode_reserved :
    read { opSel := 0b0000 } = some .reserved0000 ∧ read { opSel := 0b1101 } = some .reserved1101 ∧
    read { opSel := 0b1110 } = some .reserved1110 ∧ read { opSel := 0b1111 } = some .reserved1111 := by decide
theorem test_decode_wireNoop : readPair 0b0000000001110111 = some (.wireNoop 3 0x77) := by decide
theorem test_decode_wireCol0 : readPair 0b0000000111110000 = some (.wireCol0 3 0xF0) := by decide
theorem test_decode_wireCol1 : readPair 0b0000001011110000 = some (.wireCol1 3 0xF0) := by decide
theorem test_decode_wireCol2 : readPair 0b0000001101111110 = some (.wireCol2 3 0x7E) := by decide
theorem test_decode_wireCol3 : readPair 0b0000010001111110 = some (.wireCol3 3 0x7E) := by decide
theorem test_decode_wireCol4 : readPair 0b0000010110000001 = some (.wireCol4 3 0x81) := by decide
theorem test_decode_wireCol5 : readPair 0b0000011010000001 = some (.wireCol5 3 0x81) := by decide
theorem test_decode_wireCol6 : readPair 0b0000011100000001 = some (.wireCol6 3 0x01) := by decide
theorem test_decode_wireCol7 : readPair 0b0000100000000000 = some (.wireCol7 3 0x00) := by decide
theorem test_decode_wireOther :
    readPair 0b0000100111111111 = some (.wireOther 3 0x09 0xFF) ∧
    readPair 0b1111111100001100 = some (.wireOther 3 0xFF 0x0C) := by decide
/-- Another choice of the parameters moves the classes: `CMD_NOOP` and `COLCMD` are open (`00_scope.md` R5). -/
theorem test_decode_other_codes :
    (decode { Config.params with cmdNoop := 0xEE } (.pair 0 0xEE12)).toOption = some (.wireNoop 0 0x12) ∧
    (decode { Config.params with cmdNoop := 0xEE } (.pair 0 0x0012)).toOption = some (.wireOther 0 0x00 0x12) := by
  decide

/-! ## Helpers of the vectors -/

/-- The matrices F, A and O of `95_test_vectors.md` part 2. -/
def matF : Matrix8x8 := 0x00000000010909FF
def matA : Matrix8x8 := 0x0000007E1111117E
def matO : Matrix8x8 := 0xFFFFFFFFFFFFFFFF

/-- A chip with nothing known. -/
def blank : Chip where
  first := 0
  second := 0
  regs := { written := [], unknowns := 0 }

/-- A block configured for `n` chips, not rotated, the chain in place. -/
def ready (n : Nat) (fb : Memory) : State :=
  { State.reset with configured := true, chipCount := n, fbLen := (n + 2) * 8, fb := fb, chain := List.replicate n blank }

/-- What is read off a next state. -/
def view {α : Type} (f : State → α) : Result → Option α
  | .next s => some (f s)
  | .fault _ => none
  | .refused _ => none

/-- The response of an operation. -/
def answer (i : Instr) (s : State) : Option Response :=
  match exec i s with
  | .next t => t.response
  | .fault _ => none
  | .refused _ => none

/-- The columns `0 .. fbLen-1` after an operation, as many as asked for. -/
def columnsAfter (i : Instr) (s : State) (count : Nat) : Option (List (Option Byte)) :=
  view (fun t => (List.range count).map t.column) (exec i s)

/-- A successful response that carries bus events. -/
def sent (bus : List BusEvent) : Option Response := some { status := .ok, result := none, bus := bus }

/-- A successful response that carries a matrix, given by its columns. -/
def shows (columns : List Byte) : Option Response :=
  some { status := .ok, result := some (.matrix (mat columns)), bus := [] }

/-- A response that carries only a status. -/
def onlyStatus (status : Status) : Option Response := some { status := status, result := none, bus := [] }

/-! ## CONFIGURE (2.1) -/

/-- V-C2. -/
theorem test_VC2 :
    view (fun t => (t.configured, t.chipCount, t.rotation, t.reversed, t.fbLen)) (exec (.configure 2 .none false) State.reset)
      = some (true, 2, .none, false, 32) := by decide
/-- V-C3, and V-C8 for the upper bound. -/
theorem test_VC3_VC8 :
    answer (.configure 0 .none false) State.reset = onlyStatus .configurationError ∧
    answer (.configure 9 .none false) { State.reset with params := { Config.params with nmax := 8 } } =
      onlyStatus .configurationError := by decide
/-- V-C5: the columns are kept, eight are appended. -/
theorem test_VC5 :
    view (fun t => (t.fbLen, t.chipCount, t.column 25, t.column 39))
      (exec (.configure 3 .half true) (ready 2 [(22, 0xAA), (23, 0xBB), (24, 0xCC), (25, 0xDD)])) =
      some (40, 3, some 0xDD, some 0x00) := by decide
/-- V-C6: the buffer is not shortened. -/
theorem test_VC6 :
    view (fun t => (t.chipCount, t.fbLen, t.fb)) (exec (.configure 1 .none false) (ready 3 [(25, 0xDD)])) =
      some (1, 40, [(25, 0xDD)]) := by decide

/-! ## Matrix transforms (2.2) -/

theorem test_VM2 : answer (.mrot matF .cw90) State.reset = shows [0x01, 0x01, 0x01, 0x01, 0x07, 0x01, 0x01, 0x0F] := by
  decide
theorem test_VM5 :
    answer (.mrot matA .ccw90) State.reset = shows [0x70, 0x88, 0x88, 0x88, 0xF8, 0x88, 0x88, 0x00] ∧
    answer (.mrot matA .half) State.reset = shows [0x00, 0x00, 0x00, 0x7E, 0x88, 0x88, 0x88, 0x7E] := by decide
theorem test_VM10b :
    answer (.mflip matA .horizontal) State.reset = shows [0x00, 0x00, 0x00, 0x7E, 0x11, 0x11, 0x11, 0x7E] ∧
    answer (.mflip matA .vertical) State.reset = shows [0x7E, 0x88, 0x88, 0x88, 0x7E, 0x00, 0x00, 0x00] := by decide
/-- V-X5, V-M10e. -/
theorem test_VX5 : answer (.mflip matF .reserved) State.reset = onlyStatus .illegalOp := by decide
theorem test_VM16 :
    answer (.mshift matF 2 3) State.reset = shows [0x00, 0x00, 0xF8, 0x48, 0x48, 0x08, 0x00, 0x00] := by decide
/-- V-M15b and V-M16c: negative shifts drop cells. -/
theorem test_VM15b_VM16c :
    answer (.mshift matF 0 (-1)) State.reset = shows [0x7F, 0x04, 0x04, 0x00, 0x00, 0x00, 0x00, 0x00] ∧
    answer (.mshift matO (-7) 7) State.reset = shows [0x80, 0x00, 0x00, 0x00, 0x00, 0x00, 0x00, 0x00] := by decide
theorem test_VM18 : answer (.minv matF) State.reset = shows [0x00, 0xF6, 0xF6, 0xFE, 0xFF, 0xFF, 0xFF, 0xFF] := by
  decide
theorem test_VM19 :
    cols matF = [0xFF, 0x09, 0x09, 0x01, 0x00, 0x00, 0x00, 0x00] ∧
    mat [0xFF, 0x09, 0x09, 0x01, 0x00, 0x00, 0x00, 0x00] = matF := by decide

/-! ## The chain command encoder (2.3) -/

theorem test_VE2 :
    answer (.bcast 0x03 0x81) (ready 3 []) =
      sent [.latch false, .byte 0x03, .byte 0x7E, .byte 0x03, .byte 0x7E, .byte 0x03, .byte 0x7E, .latch true] := by decide
/-- V-E8 and V-E9: the no-op command and a command above the column class pass through. -/
theorem test_VE8_VE9 :
    answer (.bcast 0x00 0x77) (ready 1 []) = sent [.latch false, .byte 0x00, .byte 0x77, .latch true] ∧
    answer (.bcast 0x09 0xFF) (ready 1 []) = sent [.latch false, .byte 0x09, .byte 0xFF, .latch true] := by decide
theorem test_VE4b :
    answer (.ucast 0x02 0x0F 2) (ready 3 []) =
      sent [.latch false, .byte 0x00, .byte 0x00, .byte 0x00, .byte 0x00, .byte 0x02, .byte 0xF0, .latch true] := by decide
/-- V-E6 and V-E10. -/
theorem test_VE6_VE10 :
    answer (.ucast 0x03 0x55 3) (ready 3 []) = sent [] ∧
    view (fun t => t.latch) (exec (.ucast 0x03 0x55 3) (ready 3 [])) = some .unknown ∧
    answer (.ucast 0x0A 0x08 99) State.reset = onlyStatus .notConfigured := by decide
/-- V-N1: chip 0 is reached by slot 0 and chip 1 learns nothing. -/
theorem test_VN1 :
    view (fun t => t.chain.map fun ch => ch.regs.written) (exec (.ucast 0x01 0x0F 0) (ready 2 [])) = some [[(0x01, 0xF0)], []] := by decide
/-- V-N3: every chip receives a broadcast. -/
theorem test_VN3 :
    view (fun t => t.chain.map fun ch => ch.regs.written) (exec (.bcast 0x0A 0x03) (ready 2 [])) =
      some [[(0x0A, 0x03)], [(0x0A, 0x03)]] := by decide

/-! ## The framebuffer (2.4) -/

/-- V-F4 and V-F3: an offset below -8 is moved to it. -/
theorem test_VF4 :
    columnsAfter (.fbwr (-9) [0x01, 0x02, 0x03]) (ready 1 []) 4 =
      some [some 0x01, some 0x02, some 0x03, some 0x00] := by decide
/-- V-F7, V-F8: the last column, the rest clipped. -/
theorem test_VF7_VF8 :
    view (fun t => t.fb) (exec (.fbwr 15 [0x01, 0x02, 0x03]) (ready 1 [])) = some [(23, 0x01)] ∧
    view (fun t => t.fb) (exec (.fbwr 16 [0x01, 0x02, 0x03]) (ready 1 [])) = some [(23, 0x01)] := by decide
/-- V-F12 at its edges: the first column is lost, the last is zero. -/
theorem test_VF12 :
    view (fun t => t.fb) (exec .fbshl (ready 1 [(0, 0x01), (1, 0x02), (22, 0x17), (23, 0x18)])) =
      some [(0, 0x02), (21, 0x17), (22, 0x18)] := by decide
/-- V-F2's window. -/
theorem test_VF2 :
    answer .fbrdw (ready 1 [(7, 0xAA), (8, 0xBB)]) =
      some { status := .ok, result := some (.window [0xBB, 0, 0, 0, 0, 0, 0, 0]), bus := [] } := by decide
/-- V-F16: the margins are cleared too. -/
theorem test_VF16 : view (fun t => (t.fb, t.fbLen)) (exec .fbclr (ready 1 [(0, 0x01), (23, 0x18)])) = some ([], 24) := by
  decide
/-- V-F18. -/
theorem test_VF18 :
    ∀ i ∈ [Instr.fbclr, .fbwr 0 [0x01], .fbshl, .fbrdw], answer i State.reset = onlyStatus .notConfigured := by decide

/-! ## FLUSH (2.5) -/

set_option maxRecDepth 4000 in
/-- V-FL2, rotation cw90, at one chip: the data bytes as the chip ends with them (program P3). -/
theorem test_VFL2 :
    view (fun t => t.chain.map fun ch => ch.regs.written)
      (exec .flush { ready 1 [(8, 0xFF), (9, 0x09), (10, 0x09), (11, 0x01)] with rotation := .cw90, reversed := true }) =
      some [[(1, 0xFE), (2, 0xFE), (3, 0xFE), (4, 0xFE), (5, 0xF8), (6, 0xFE), (7, 0xFE), (8, 0xF0)]] := by decide
set_option maxRecDepth 4000 in
/-- V-FL1 at its first transaction: slice 0 goes to chip 1, slot 1. -/
theorem test_VFL1 :
    (answer .flush (ready 2 [(8, 0x01), (16, 0x09)])).map (fun r => (r.bus.length, r.bus.take 6)) =
      some (96, [.latch false, .byte 0x00, .byte 0x00, .byte 0x01, .byte 0xFE, .latch true]) := by decide

/-! ## Statuses, reserved codes and wire pairs (2.6, `30_encoding.md` R73) -/

/-- V-X1 to V-X3. -/
theorem test_VX1_VX3 :
    answer .reserved0000 State.reset = onlyStatus .illegalOp ∧ answer .reserved1111 State.reset = onlyStatus .illegalOp ∧
    answer .reserved1101 (ready 1 []) = onlyStatus .illegalOp ∧ answer .reserved1110 (ready 1 []) = onlyStatus .illegalOp := by decide
/-- The status codes of `30_encoding.md` R62. -/
theorem test_status_codes :
    [Status.ok, .notConfigured, .configurationError, .illegalOp].map Status.code = [0b00, 0b01, 0b10, 0b11] := by decide
theorem test_wire_columns :
    [Instr.wireCol0 1 0xF0, .wireCol1 1 0xF0, .wireCol2 1 0xF0, .wireCol3 1 0xF0, .wireCol4 1 0xF0, .wireCol5 1 0xF0,
      .wireCol6 1 0xF0, .wireCol7 1 0xF0].map (fun i => view (fun t => t.chain.map fun ch => ch.regs.written) (exec i (ready 2 []))) =
    [1, 2, 3, 4, 5, 6, 7, 8].map (fun k => some [[], [(k, 0xF0)]]) := by decide
theorem test_wire_other :
    view (fun t => t.chain.map fun ch => ch.regs.written) (exec (.wireOther 0 0x0A 0x03) (ready 2 [])) = some [[(0x0A, 0x03)], []] ∧
    view (fun t => t.chain.map fun ch => ch.regs.written) (exec (.wireNoop 0 0x77) (ready 2 [])) = some [[], []] := by decide
theorem test_wire_absent_chip : exec (.wireNoop 2 0x77) (ready 2 []) = .fault (.noSuchChip 2) := by rfl

/-! ## Host sequences -/

/-- The glyph of program P2. -/
def glyphG : Glyph where
  key := 'g'
  columns := [0x7F, 0x09, 0x06]

/-- A glyph table with that one glyph. -/
def onlyG (ch : Char) : Option Glyph := if ch = 'g' then some glyphG else none

/-- `45_host_sequences.md` R171: the unmatched character is skipped, the advance is the column count. -/
theorem test_layout : layoutText onlyG ['g', 'x', 'g'] = .ok ⟨[glyphG, glyphG], [3, 3], 6⟩ := by rfl
/-- The first step of program P2 issues these three operations, the second only the last two. -/
theorem test_P2 :
    (scrollText 1 [glyphG] 100 1000).toOption.map (fun as => (operationsOf as).take 5) =
      some [.fbwr 8 [0x7F, 0x09, 0x06], .fbshl, .flush, .fbshl, .flush] := by decide
/-- P1 step 2, `BRIGHT.ALL 8`. -/
theorem test_P1_bright :
    (PseudoOp.bright .all 8).expand Config.params = [.bcast 0x0A 0x08] := by decide

/-! ## One step from reset runs the word placed where the step fetches -/

theorem test_step_reserved :
    view (fun t => t.response) (step (State.reset.withFetchWord 8 0x1)) = some (onlyStatus .configurationError) ∧
    view (fun t => t.response) (step (State.reset.withFetchWord 8 0xC)) = some (onlyStatus .notConfigured) ∧
    view (fun t => t.response) (step (State.reset.withFetchWord 8 0xF)) = some (onlyStatus .illegalOp) := by decide
theorem test_step_pair :
    view (fun t => t.chain.map fun ch => ch.regs.written) (step (State.reset.withFetchWord 16 0x0355)) = some [[(0x03, 0x55)]] := by decide
theorem test_step_idle : view (fun t => t.inbox) (step State.reset) = some [] := by decide

/-! ## States and operands that meet the hypotheses of the obligations, each named after its obligation -/

/-- A pair of presentations that meets every hypothesis of OperationReadsOnlyItsPorts. -/
abbrev ReadAlike (q q' : Ports) : Prop :=
  q.opSel = q'.opSel ∧
    (q.opSel = 0b0001 → q.n = q'.n ∧ q.rot = q'.rot ∧ q.rev = q'.rev) ∧
    (q.opSel = 0b0010 → q.cmd = q'.cmd ∧ q.data = q'.data) ∧
    (q.opSel = 0b0011 → q.cmd = q'.cmd ∧ q.data = q'.data ∧ q.idx = q'.idx) ∧
    (q.opSel = 0b0100 → q.m = q'.m ∧ q.dir = q'.dir) ∧
    (q.opSel = 0b0101 → q.m = q'.m ∧ q.axis = q'.axis) ∧
    (q.opSel = 0b0110 → q.m = q'.m ∧ q.dx = q'.dx ∧ q.dy = q'.dy) ∧
    (q.opSel = 0b0111 → q.m = q'.m) ∧
    (q.opSel = 0b1001 → q.off = q'.off ∧ q.len = q'.len ∧ q.run = q'.run)

/-- `ready n` meets the invariant for every `n` in the range, whatever the canonical columns. -/
theorem ready_inv {n : Nat} {fb : Memory} (h1 : 1 ≤ n) (h2 : n ≤ 65535) (hf : fb.wf) (hi : ∀ c ∈ fb, c.1 < (n + 2) * 8) :
    (ready n fb).Inv where
  legal := show Config.params.Legal by decide
  count := fun _ => ⟨h1, h2⟩
  window := fun _ => le_refl _
  whole := Nat.mul_mod_left _ _
  capacity := Nat.mul_le_mul_right 8 (Nat.add_le_add_right h2 2)
  canonical := hf
  inside := hi
  latch := by simp [ready, State.reset]
  registers := by
    intro chip hc
    have := (List.mem_replicate.1 hc).2
    subst this
    decide

/-- The bounds of the operands, each at its extreme. -/
theorem witness_DecodeInvertsEncode :
    Config.params.Legal ∧ ∀ i ∈ [Instr.configure 65535 .half true, .mshift matF (-2147483648) 2147483647,
      .fbwr (-2147483648) [0xAA], .wireCol7 3 0x00, .wireOther 3 0xFF 0x00], i.wf Config.params = true := by decide
theorem witness_FittingPortsDecodeToWellFormed :
    ({ opSel := 0b1001, off := 0xFFFFFFFF, len := 1, run := [0xAA], idx := 65535 } : Ports).Fits Config.params := by
  decide
theorem witness_OperationReadsOnlyItsPorts :
    ∀ k ∈ [0b0001, 0b0010, 0b0100, 0b0101, 0b0110, 0b0111, 0b1000, 0b1001, 0b1100, 0b1111],
      ReadAlike { opSel := k, idx := 7 } { opSel := k } := by decide
theorem witness_OperationReadsOnlyItsPorts_ucast :
    ReadAlike { opSel := 0b0011, idx := 7, n := 3 } { opSel := 0b0011, idx := 7 } := by decide
theorem witness_StepRunsTheDecodedInstruction :
    (State.reset.present (.command { opSel := 0b1100 })).inbox = .command { opSel := 0b1100 } :: [] ∧
    (decode Config.params (.command { opSel := 0b1100 })).toOption = some .flush ∧
    ((ready 2 []).present (.pair 1 0x0355)).inbox = .latched 1 :: [] ∧
    (((ready 2 []).present (.pair 1 0x0355)).chain[1]?).map (fun ch => mkPair ch.first ch.second) = some 0x0355 ∧
    State.reset.inbox = [] := by decide
theorem witness_PresentedInstructionRuns :
    (ready 2 []).params.Legal ∧ (Instr.flush).wf (ready 2 []).params = true ∧
    encode (ready 2 []).params .flush = .command { opSel := 0b1100 } ∧
    (Instr.wireCol2 1 0x55).wf (ready 2 []).params = true ∧
    encode (ready 2 []).params (.wireCol2 1 0x55) = .pair 1 0x0355 ∧ 1 < (ready 2 []).chain.length := by decide
theorem witness_ConfigureWritesConfiguration :
    (1 ≤ 1 ∧ 1 ≤ State.reset.params.nmax) ∧ (1 ≤ 65535 ∧ 65535 ≤ State.reset.params.nmax) ∧
    0 < (ready 1 []).fbLen ∧ (ready 1 []).fbLen ≤ 24 := by decide
theorem witness_ConfigureRejectsBadCount :
    (0 = 0 ∨ State.reset.params.nmax < 0) ∧ (65536 = 0 ∨ State.reset.params.nmax < 65536) := by decide
theorem witness_ConfigureIsIdempotent : ∃ t, exec (.configure 65535 .cw90 true) State.reset = .next t := ⟨_, rfl⟩
theorem witness_ColumnDataIsComplementedOnWire :
    (ready 3 []).configured = true ∧ 2 < (ready 3 []).chipCount ∧
    ((∃ j : Fin 8, (0x01 : Byte) = (ready 3 []).params.colCmd j) ∧ (0x7E : Byte) = 0x81 ^^^ 0xFF) ∧
    (∃ j : Fin 8, (0x08 : Byte) = (ready 3 []).params.colCmd j) ∧
    (∀ j : Fin 8, (0x00 : Byte) ≠ (ready 3 []).params.colCmd j) ∧
    (∀ j : Fin 8, (0x09 : Byte) ≠ (ready 3 []).params.colCmd j) := by decide
theorem witness_BcastSendsTheSamePairToEverySlot : (ready 3 []).configured = true := by decide
theorem witness_UcastSendsThePairInItsSlot :
    (ready 3 []).configured = true ∧ 0 < (ready 3 []).chipCount ∧ 2 < (ready 3 []).chipCount := by decide
theorem witness_UcastOutOfRangeDoesNothing : (ready 3 []).configured = true ∧ (ready 3 []).chipCount ≤ 3 := by decide
theorem witness_ChainHoldsTheLastBytes :
    [(1 : Byte), 2, 3, 4].length = 2 * (ready 2 []).chain.length ∧ (ready 2 []).chain[1]? = some blank := by decide
theorem witness_RisingLatchCommitsEveryPair :
    ((ready 2 []).setLatch false).latch = .low ∧ ((ready 2 []).setLatch false).chain[1]? = some blank ∧
    (ready 2 []).latch = .unknown := by decide
theorem witness_BroadcastReachesEveryChip :
    (ready 3 []).configured = true ∧ (ready 3 []).ChainMatches ∧ (0x01 : Byte) ≠ (ready 3 []).params.cmdNoop :=
  ⟨rfl, rfl, by decide⟩
theorem witness_UnicastReachesOneChip :
    (ready 3 []).configured = true ∧ (ready 3 []).ChainMatches ∧ (0x00 : Byte) = (ready 3 []).params.cmdNoop ∧
    (0x01 : Byte) ≠ (ready 3 []).params.cmdNoop ∧ 2 < (ready 3 []).chipCount ∧ (ready 3 []).chipCount ≤ 3 :=
  ⟨rfl, rfl, rfl, by decide, by decide, by decide⟩
theorem witness_MshiftReturnsTheTranslatedMatrix :
    ((7 : Nat) : Int) = ((0 : Nat) : Int) + 7 ∧ ((0 : Nat) : Int) = ((7 : Nat) : Int) + (-7) ∧
    (∀ x < 8, ¬ ((6 : Nat) : Int) = ((x : Nat) : Int) + 7) := by decide
theorem witness_PackingRoundTrip : [(1 : Byte), 2, 3, 4, 5, 6, 7, 8].length = 8 := by decide
theorem witness_FbclrZeroesEveryColumn :
    (ready 1 [(23, 0x01)]).configured = true ∧ 23 < (ready 1 [(23, 0x01)]).fbLen := by decide
theorem witness_FbwrWritesTheClampedRun :
    (ready 1 []).configured = true ∧ 24 ≤ (ready 1 []).fbLen ∧ 0 < [(0xAA : Byte)].length ∧
    23 + 0 < (ready 1 []).fbLen := by decide
theorem witness_FbwrClampCorners :
    (ready 1 []).configured = true ∧ 24 ≤ (ready 1 []).fbLen ∧ (-9 : Int) < -8 ∧
    ((ready 1 []).fbLen : Int) - 9 < 16 := by decide
theorem witness_FbshlMovesEveryColumnDown :
    (ready 1 []).configured = true ∧ 0 < (ready 1 []).fbLen ∧ 22 + 1 < (ready 1 []).fbLen := by decide
theorem witness_FbrdwReturnsTheWindow :
    (ready 1 []).configured = true ∧ 8 * (ready 1 []).chipCount + 8 ≤ (ready 1 []).fbLen ∧
    7 < 8 * (ready 1 []).chipCount := by decide
theorem witness_WriteThenShiftIsShiftThenWrite :
    (ready 1 []).configured = true ∧ 24 ≤ (ready 1 []).fbLen ∧ (-8 : Int) ≤ -7 - 1 ∧
    (-7 : Int) ≤ ((ready 1 []).fbLen : Int) - 9 ∧ (-7 : Int) + 8 + ([0xAA, 0xBB] : List Byte).length ≤ (ready 1 []).fbLen := by
  decide
theorem witness_FlushSendsTheRotatedWindow :
    (ready 1 []).configured = true ∧ 1 ≤ (ready 1 []).chipCount ∧
    8 * (ready 1 []).chipCount + 8 ≤ (ready 1 []).fbLen := by decide
theorem witness_FlushFillsTheColumnRegisters :
    (ready 2 []).params.Legal ∧ (ready 2 []).configured = true ∧ (ready 2 []).ChainMatches ∧
    8 * (ready 2 []).chipCount + 8 ≤ (ready 2 []).fbLen ∧ 1 < (ready 2 []).chipCount ∧
    (ready 2 []).params.isColumnCmd 0x0A = false := ⟨by decide, rfl, rfl, by decide, by decide, by decide⟩
theorem witness_FlushLightsTheSetCells :
    (ready 2 []).params.Legal ∧ (ready 2 []).configured = true ∧ (ready 2 []).ChainMatches ∧
    8 * (ready 2 []).chipCount + 8 ≤ (ready 2 []).fbLen ∧ (ready 2 []).rotation = .none :=
  ⟨by decide, rfl, rfl, by decide, rfl⟩
theorem witness_SliceMappingIsAnInvolution : 0 < 1 ∧ 2 < 3 := by decide
theorem witness_UnconfiguredOperationsAreRefused : State.reset.configured = false := by decide
theorem witness_NonOkStatusHasNoEffect :
    isCommand (.configure 0 .half true) = true ∧ ∃ t, exec (.configure 0 .half true) (ready 1 []) = .next t ∧
      t.response = some { status := .configurationError, result := none, bus := [] } := ⟨rfl, _, rfl, rfl⟩
theorem witness_EveryOperationCompletes : (ready 1 [(23, 0x01)]).Inv ∧ isCommand .flush = true :=
  ⟨ready_inv (by decide) (by decide) (by decide) (by decide), rfl⟩
theorem witness_EveryFittingStepCompletes :
    ((ready 1 []).present (.command { opSel := 0b1001, off := 0xFFFFFFFF, len := 1, run := [0xAA] })).Inv ∧
    (∀ q rest, ((ready 1 []).present (.command { opSel := 0b1001, off := 0xFFFFFFFF, len := 1, run := [0xAA] })).inbox =
      .command q :: rest → q.Fits Config.params) ∧
    ∀ chip rest, ((ready 1 []).present (.pair 0 0x0355)).inbox = .latched chip :: rest → chip < (ready 1 []).chain.length := by
  have h := ready_inv (n := 1) (fb := []) (by decide) (by decide) (by decide) (by decide)
  refine ⟨⟨h.legal, h.count, h.window, h.whole, h.capacity, h.canonical, h.inside, h.latch, h.registers⟩, ?_, ?_⟩
  · intro q rest he
    simp only [State.present, List.cons.injEq, Presentation.command.injEq] at he
    rw [← he.1]
    decide
  · intro chip rest he
    simp only [State.present, List.cons.injEq, Presentation.latched.injEq] at he
    rw [← he.1]
    decide
theorem witness_ColumnPairWritesItsRegister : 1 < (ready 2 []).chain.length := by decide
theorem witness_OtherPairWritesTheRegisterItNames :
    1 < (ready 2 []).chain.length ∧ (Instr.wireOther 1 0x09 0x55).wf (ready 2 []).params = true ∧
    (Instr.wireOther 1 0xFF 0x55).wf (ready 2 []).params = true := by decide
theorem witness_CommitFollowsTheDecodeTable :
    (ready 2 []).chain[1]? = some blank ∧
    (decode (ready 2 []).params (.pair 1 (mkPair blank.first blank.second))).toOption = some (.wireNoop 1 0x00) := by decide
theorem witness_StepKeepsTheInvariant :
    ((ready 1 []).present (.command { opSel := 0b1010 })).Inv ∧
    ∃ t, step ((ready 1 []).present (.command { opSel := 0b1010 })) = .next t :=
  have h := ready_inv (n := 1) (fb := []) (by decide) (by decide) (by decide) (by decide)
  ⟨⟨h.legal, h.count, h.window, h.whole, h.capacity, h.canonical, h.inside, h.latch, h.registers⟩, _, rfl⟩
theorem witness_StepsOnlyGrow :
    ∃ t, step ((ready 1 []).present (.command { opSel := 0b0010, cmd := 0x0A, data := 0x08 })) = .next t ∧
      t.trace.length = 4 ∧ (ready 1 []).configured = true := ⟨_, rfl, by decide, rfl⟩
theorem witness_WhoChangesWhat :
    (∃ t, exec (.minv 0) (ready 1 []) = .next t) ∧ (∃ t, exec (.wireCol0 0 0x01) (ready 1 []) = .next t) ∧
    (∃ t, exec .fbclr (ready 1 []) = .next t) := ⟨⟨_, rfl⟩, ⟨_, rfl⟩, ⟨_, rfl⟩⟩
theorem witness_TraceIsWholeTransactions :
    ∃ t, exec (.bcast 0x0A 0x08) (ready 2 []) = .next t ∧ t.trace.length = 6 := ⟨_, rfl, by decide⟩
theorem witness_ResponseCarriesTheNewEvents :
    isCommand (.bcast 0x0A 0x08) = true ∧ ∃ t, exec (.bcast 0x0A 0x08) (ready 2 []) = .next t := ⟨rfl, _, rfl⟩
theorem witness_DisplayPatternReachesEveryChip :
    (ready 2 []).params.Legal ∧ (ready 2 []).configured = true ∧ (ready 2 []).ChainMatches := ⟨by decide, rfl, rfl⟩
theorem witness_ScrollStepCount : ∃ actions, scrollText 1 [glyphG] 100 1000 = .ok actions := ⟨_, rfl⟩
theorem witness_ScrollLeavesTheWindowDark :
    (ready 1 [(15, 0x55)]).configured = true ∧ ((ready 1 [(15, 0x55)]).chipCount + 2) * 8 ≤ (ready 1 [(15, 0x55)]).fbLen ∧
    (∀ g ∈ [glyphG, ⟨'I', [0xFF]⟩, ⟨'W', [1, 2, 3, 4, 5, 6, 7, 8]⟩], 1 ≤ g.length ∧ g.length ≤ 8) ∧
    (∀ i, 8 * (ready 1 [(15, 0x55)]).chipCount + 8 ≤ i → i < (ready 1 [(15, 0x55)]).fbLen →
      (ready 1 [(15, 0x55)]).fb.get i = 0x00) ∧
    ∃ actions, scrollText 1 [glyphG, ⟨'I', [0xFF]⟩, ⟨'W', [1, 2, 3, 4, 5, 6, 7, 8]⟩] 100 1000 = .ok actions :=
  ⟨rfl, by decide, by decide, fun i h _ => by
    have h : 16 ≤ i := h
    show (cellAt [(15, 0x55)] i).getD 0 = 0
    rw [cellAt_eq_none (by simp; omega)]
    rfl, _, rfl⟩
theorem witness_LayoutSkipsUnmatchedCharacters :
    (∀ ch ∈ ['x', 'y'], onlyG ch = none) ∧ (∃ ch ∈ ['x', 'g'], onlyG ch ≠ none) := by simp [onlyG]
theorem witness_BrightSetsTheIntensityRegister :
    (ready 3 []).configured = true ∧ (ready 3 []).ChainMatches ∧
    (ready 3 []).params.isColumnCmd (ready 3 []).params.cmdIntensity = false ∧
    (ready 3 []).params.cmdIntensity ≠ (ready 3 []).params.cmdNoop := ⟨rfl, rfl, by decide, by decide⟩

end Sys2Proof.Tests
end

section
/-! The packing of a matrix into its columns (`00_scope.md` R8). -/

namespace Sys2Proof.Machine

/-- Both sides have the same 64 cells: a cell of `mat` is a bit of a column byte, and that bit is the cell it came from. -/
theorem mat_cols (m : Matrix8x8) : mat (cols m) = m := by
  refine matrix_ext fun x hx y hy => ?_
  rw [cell_mat _ hx hy, getD_cols _ hx, getLsbD_columnByte _ _ hy]

/-- Only a list of eight columns comes back: `mat` drops a ninth, and `cols` always gives eight. -/
theorem cols_mat {cs : List Byte} (hlen : cs.length = 8) : cols (mat cs) = cs := by
  refine List.ext_getElem (by rw [length_cols, hlen]) fun x hx hx' => ?_
  have hx8 : x < 8 := hlen ▸ hx'
  rw [← List.getD_eq_getElem _ 0 hx, ← List.getD_eq_getElem _ 0 hx', getD_cols _ hx8, columnByte_mat _ hx8]

/-- Settles O24, from the two round trips `mat_cols` and `cols_mat`. -/
theorem packingRoundTrip : Obligations.PackingRoundTrip :=
  ⟨mat_cols, fun _ hlen => cols_mat hlen⟩

end Sys2Proof.Machine
end

section
/-! The state of the block (`10_state.md`): what a step finds to run, what each kind of effect keeps, and the invariant. -/

namespace Sys2Proof.Machine

/-! ## Fetching -/

theorem fetch_idle {s : State} (h : s.inbox = []) : s.fetch = .idle := by
  simp only [State.fetch, h]

theorem fetch_command {s : State} {q : Ports} {rest : List Presentation} {i : Instr}
    (h : s.inbox = .command q :: rest) (hd : decode s.params (.command q) = .ok i) :
    s.fetch = .run i { s with inbox := rest } := by
  simp only [State.fetch, h, hd]

theorem fetch_latched {s : State} {chip : Nat} {c : Chip} {rest : List Presentation} {i : Instr}
    (h : s.inbox = .latched chip :: rest) (hc : s.chain[chip]? = some c)
    (hd : decode s.params (.pair chip (mkPair c.first c.second)) = .ok i) :
    s.fetch = .run i { s with inbox := rest } := by
  simp only [State.fetch, h, hc, hd]

theorem step_of_idle {s : State} (h : s.fetch = .idle) : step s = .next s := by
  simp only [step, h]

theorem step_of_run {s rest : State} {i : Instr} (h : s.fetch = .run i rest) : step s = exec i rest := by
  simp only [step, h]

/-! ## What each kind of effect keeps -/

section
variable {i : Instr} {s t : State}

theorem Effect.params_eq (h : Effect i s t) : t.params = s.params := by
  cases h with
  | configure => exact growTo_params _ _
  | answer | columns | bus | chips => rfl

theorem Effect.inbox_eq (h : Effect i s t) : t.inbox = s.inbox := by
  cases h with
  | configure => exact growTo_inbox _ _
  | answer | columns | bus | chips => rfl

theorem Effect.chain_length_eq (h : Effect i s t) : t.chain.length = s.chain.length := by
  cases h with
  | configure => exact congrArg List.length (growTo_chain _ _)
  | bus _ _ _ _ hc | chips _ _ hc => exact hc
  | answer | columns => rfl

theorem Effect.trace_extends (h : Effect i s t) : ∃ bus, t.trace = s.trace ++ bus := by
  cases h with
  | configure => exact ⟨[], by simp⟩
  | bus transactions => exact ⟨transactions.flatMap frame, rfl⟩
  | answer | columns | chips => exact ⟨[], (List.append_nil _).symm⟩

theorem Effect.fbLen_le (h : Effect i s t) : s.fbLen ≤ t.fbLen := by
  cases h with
  | configure => simp
  | answer | columns | bus | chips => exact le_rfl

theorem Effect.configured_of_configured (h : Effect i s t) (hs : s.configured = true) : t.configured = true := by
  cases h with
  | configure => exact growTo_configured _ _
  | answer | columns | bus | chips => exact hs

theorem Effect.configuration_eq (h : Effect i s t) (hi : ∀ n rot rev, i ≠ .configure n rot rev) :
    t.configured = s.configured ∧ t.chipCount = s.chipCount ∧ t.rotation = s.rotation ∧
      t.reversed = s.reversed ∧ t.fbLen = s.fbLen := by
  cases h with
  | configure n rot rev he => exact absurd he (hi n rot rev)
  | answer | columns | bus | chips => exact ⟨rfl, rfl, rfl, rfl, rfl⟩

theorem Effect.fb_eq (h : Effect i s t) (hi : ∀ n rot rev, i ≠ .configure n rot rev) (hclr : i ≠ .fbclr)
    (hwr : ∀ off run, i ≠ .fbwr off run) (hshl : i ≠ .fbshl) : t.fb = s.fb := by
  cases h with
  | configure n rot rev he => exact absurd he (hi n rot rev)
  | columns _ he =>
    rcases he with he | ⟨off, run, he⟩ | he
    · exact absurd he hclr
    · exact absurd he (hwr off run)
    · exact absurd he hshl
  | answer | bus | chips => rfl

theorem Effect.bus_eq (h : Effect i s t) (hb : ∀ cmd data, i ≠ .bcast cmd data)
    (hu : ∀ cmd data idx, i ≠ .ucast cmd data idx) (hf : i ≠ .flush) :
    t.trace = s.trace ∧ t.latch = s.latch ∧ (isCommand i = true → t.chain = s.chain) := by
  cases h with
  | configure => exact ⟨growTo_trace _ _, growTo_latch _ _, fun _ => growTo_chain _ _⟩
  | bus _ _ he =>
    rcases he with ⟨cmd, data, he⟩ | ⟨cmd, data, idx, he⟩ | he
    · exact absurd he (hb cmd data)
    · exact absurd he (hu cmd data idx)
    · exact absurd he hf
  | chips _ hw => exact ⟨rfl, rfl, fun hc => absurd hc (by simp [hw])⟩
  | answer | columns => exact ⟨rfl, rfl, fun _ => rfl⟩

/-- Every kind of effect but that of a wire pair belongs to the command port, so a wire pair leaves the response. -/
theorem Effect.response_eq_of_wire (h : Effect i s t) (hw : isCommand i = false) : t.response = s.response := by
  cases h with
  | answer _ hc => exact absurd hc (by simp [hw])
  | configure _ _ _ he => subst he; cases hw
  | columns _ he => rcases he with rfl | ⟨_, _, rfl⟩ | rfl <;> cases hw
  | bus _ _ he => rcases he with ⟨_, _, rfl⟩ | ⟨_, _, _, rfl⟩ | rfl <;> cases hw
  | chips => rfl

end

/-! ## The invariant -/

/-- Where no byte is listed beyond the buffer, growing it lists and unlists nothing. -/
theorem growTo_fb_of_inside {s : State} (need : Nat) (h : ∀ c ∈ s.fb, c.1 < s.fbLen) : (s.growTo need).fb = s.fb := by
  unfold State.growTo
  split
  · exact List.filter_eq_self.2 fun c hc => decide_eq_true (h c hc)
  · rfl

theorem inv_reset : State.reset.Inv where
  legal := show Config.params.Legal by decide
  count := by simp [State.reset]
  window := by simp [State.reset]
  whole := rfl
  capacity := Nat.zero_le _
  canonical := wf_reset
  inside := by simp [State.reset]
  latch := by simp [State.reset]
  registers := by
    intro chip hchip
    obtain ⟨k, -, rfl⟩ := List.mem_map.1 hchip
    exact ⟨List.Pairwise.nil, by simp [Chip.atReset]⟩

/-- The invariant says nothing of the inbox. -/
theorem State.Inv.with_inbox {s : State} (h : s.Inv) (inbox : List Presentation) :
    ({ s with inbox := inbox } : State).Inv :=
  { h with }

/-- A configuration with a legal count grows the buffer to whole slices within the capacity. -/
theorem State.Inv.configure {s : State} (h : s.Inv) {n : Nat} (rot : Rotation) (rev : Bool) (h1 : 1 ≤ n)
    (h2 : n ≤ s.params.nmax) :
    (State.growTo { s with chipCount := n, rotation := rot, reversed := rev, configured := true } ((n + 2) * 8)).Inv where
  legal := by simpa using h.legal
  count := by simp [h1, h2]
  window := by simp
  whole := by
    have := h.whole
    simp only [growTo_fbLen]
    omega
  capacity := by
    have := h.capacity
    simp only [growTo_fbLen, growTo_params, Params.fbCap] at this ⊢
    omega
  canonical := by
    rw [growTo_fb_of_inside]
    exacts [h.canonical, h.inside]
  inside := by
    rw [growTo_fb_of_inside, growTo_fbLen]
    exacts [fun c hc => lt_max_of_lt_left (h.inside c hc), h.inside]
  latch := by simpa using h.latch
  registers := by simpa using h.registers

theorem Effect.inv {i : Instr} {s t : State} (he : Effect i s t) (h : s.Inv) : t.Inv := by
  cases he with
  | answer => exact { h with }
  | configure n rot rev _ h1 h2 => exact { h.configure rot rev h1 h2 with }
  | columns fb _ hw hb => exact { h with canonical := hw h.canonical, inside := hb h.inside }
  | bus transactions chain _ _ _ hw =>
    have hl : (if transactions.isEmpty then s.latch else .high) ≠ LatchLevel.low := by
      split
      · exact h.latch
      · decide
    exact { h with latch := hl, registers := hw h.registers }
  | chips chain _ _ hw => exact { h with registers := hw h.registers }

/-! ## The obligations -/

/-- Settles O44: an idle step changes nothing, and any other has one of the effects of `exec_effect`, each of which keeps
the invariant. -/
theorem stepKeepsTheInvariant : Obligations.StepKeepsTheInvariant := by
  intro s t hs ht
  rcases step_cases ht with ⟨-, rfl⟩ | ⟨i, rest, -, he⟩
  · exact hs
  · exact (exec_effect he).inv (hs.with_inbox rest)

/-- Settles O45, from what every effect keeps or extends. -/
theorem stepsOnlyGrow : Obligations.StepsOnlyGrow := by
  intro s t ht
  rcases step_cases ht with ⟨-, rfl⟩ | ⟨i, rest, -, he⟩
  · exact ⟨le_rfl, ⟨[], (List.append_nil _).symm⟩, id, rfl, rfl⟩
  · have e := exec_effect he
    exact ⟨e.fbLen_le, e.trace_extends, e.configured_of_configured, e.params_eq, e.chain_length_eq⟩

/-- Settles O46: each clause is what the effects other than those of the excepted instructions keep. -/
theorem whoChangesWhat : Obligations.WhoChangesWhat := by
  intro i s t h
  have e := exec_effect h
  exact ⟨e.configuration_eq, e.fb_eq, e.bus_eq, e.inbox_eq, e.response_eq_of_wire⟩

/-- Settles O6, one clause for each way the inbox can begin. -/
theorem stepRunsTheDecodedInstruction : Obligations.StepRunsTheDecodedInstruction :=
  ⟨fun _ _ _ _ h hd => step_of_run (fetch_command h hd),
    fun _ _ _ _ _ h hc hd => step_of_run (fetch_latched h hc hd),
    fun _ h => step_of_idle (fetch_idle h)⟩

/-- Settles O43: the three fields are read off the reset state, the invariant is `inv_reset`. -/
theorem resetMeetsTheInvariant : Obligations.ResetMeetsTheInvariant :=
  ⟨rfl, rfl, rfl, inv_reset⟩

end Sys2Proof.Machine
end

section
/-! The host's memory of presentations (`20_memory.md` R45, R51): what is presented is what the next step runs, and from a
state under the invariant that step completes. -/

namespace Sys2Proof.Machine

/-! ## Decoding an encoded instruction -/

theorem colCmd_eq_iff {p : Params} (h : p.Legal) {i j : Fin 8} : p.colCmd i = p.colCmd j ↔ i = j :=
  ⟨colCmd_inj h, congrArg p.colCmd⟩

theorem wf_wireOther_iff {p : Params} {chip : Nat} {c d : Byte} :
    (Instr.wireOther chip c d).wf p = true ↔ c ≠ p.cmdNoop ∧ ∀ j, c ≠ p.colCmd j := by
  have hcol : p.isColumnCmd c = false ↔ ∀ j, c ≠ p.colCmd j := by
    rw [← Bool.not_eq_true, isColumnCmd_iff, not_exists]
    exact forall_congr' fun j => not_congr eq_comm
  simp [Instr.wf, hcol]

/-- Each port of a command carries its operand back. -/
theorem decode_encode_of_command {p : Params} {i : Instr} (hi : i.wf p = true) (hc : isCommand i = true) :
    decode p (encode p i) = .ok i := by
  cases i with
  | configure n rot rev =>
    have hn : zext p.idxw n = n := zext_of_fits hi
    cases rev <;> simp [encode, decode, decodeCommand, hn]
  | ucast cmd data idx =>
    have hidx : zext p.idxw idx = idx := zext_of_fits hi
    simp [encode, decode, decodeCommand, hidx]
  | mrot | mflip => simp [encode, decode, decodeCommand]
  | mshift m dx dy =>
    obtain ⟨hx, hy⟩ := Bool.and_eq_true_iff.1 hi
    simp [encode, decode, decodeCommand, sext_rawOfInt hx, sext_rawOfInt hy]
  | fbwr off run =>
    obtain ⟨ho, -⟩ := Bool.and_eq_true_iff.1 hi
    simp [encode, decode, decodeCommand, decodeRun, sext_rawOfInt ho]
  | bcast | minv | fbclr | fbshl | fbrdw | flush | reserved0000 | reserved1101 | reserved1110 | reserved1111 => rfl
  | wireNoop | wireCol0 | wireCol1 | wireCol2 | wireCol3 | wireCol4 | wireCol5 | wireCol6 | wireCol7 | wireOther =>
    cases hc

/-- The classes of a pair are told apart by the command byte: the legal column commands differ from the no-op command and
from each other. -/
theorem decode_encode_of_wire {p : Params} {i : Instr} (hp : p.Legal) (hi : i.wf p = true)
    (hw : isCommand i = false) : decode p (encode p i) = .ok i := by
  cases i with
  | wireNoop => simp [encode, decode, decodePair]
  | wireCol0 | wireCol1 | wireCol2 | wireCol3 | wireCol4 | wireCol5 | wireCol6 | wireCol7 =>
    simp [encode, decode, decodePair, colCmd_ne_noop hp, colCmd_eq_iff hp]
  | wireOther chip c d =>
    obtain ⟨hnoop, hcol⟩ := wf_wireOther_iff.1 hi
    simp [encode, decode, decodePair, hnoop, hcol]
  | _ => cases hw

theorem decode_encode {p : Params} {i : Instr} (hp : p.Legal) (hi : i.wf p = true) :
    decode p (encode p i) = .ok i := by
  cases hc : isCommand i with
  | true => exact decode_encode_of_command hi hc
  | false => exact decode_encode_of_wire hp hi hc

/-! ## Running what is presented -/

theorem step_present_command {s : State} {q : Ports} {i : Instr} (hd : decode s.params (.command q) = .ok i) :
    step (s.present (.command q)) = exec i s :=
  step_of_run (fetch_command rfl hd)

/-- The chip holds the pair as its two bytes, and the fetch puts them together again. -/
theorem step_present_pair {s : State} {chip : Nat} {word : BitVec 16} {i : Instr} (hchip : chip < s.chain.length)
    (hd : decode s.params (.pair chip word) = .ok i) :
    step (s.present (.pair chip word)) = exec i { s with chain := s.chain.modify chip (Chip.hold word) } := by
  have hheld : (s.present (.pair chip word)).chain[chip]? = some (s.chain[chip].hold word) := by
    simp [State.present, hchip]
  refine step_of_run (fetch_latched rfl hheld ?_)
  rwa [show mkPair (s.chain[chip].hold word).first (s.chain[chip].hold word).second = word from mkPair_eta word]

/-- Settles O7: what is presented decodes to the instruction encoded, and the step runs what the decoder finds. -/
theorem presentedInstructionRuns : Obligations.PresentedInstructionRuns := by
  refine ⟨fun s i q hp hi he => ?_, fun s i chip word hp hi he hchip => ?_⟩
  · have hd := decode_encode hp hi
    rw [he] at hd ⊢
    exact step_present_command hd
  · have hd := decode_encode hp hi
    rw [he] at hd ⊢
    exact step_present_pair hchip hd

/-! ## Every fitting presentation is an operation -/

theorem decodeRun_of_whole {p : Params} {q : Ports} (h : q.run.length = q.len) :
    decodeRun p q = .ok (.fbwr (sext p.offw q.off) q.run) := by
  simp [decodeRun, ← h]

/-- A burst that is shorter than its `len` is the only reason not to decode. -/
theorem decode_command_of_whole {p : Params} {q : Ports} (h : q.run.length = q.len) :
    ∃ i, decode p (.command q) = .ok i ∧ isCommand i = true := by
  simp only [decode, decodeCommand, decodeRun_of_whole h]
  split <;> exact ⟨_, rfl, rfl⟩

/-! ## Every operation completes -/

theorem whenConfigured_completes {s : State} {run : State → Result}
    (h : s.configured = true → ∃ t, run s = .next t) : ∃ t, s.whenConfigured run = .next t := by
  cases hc : s.configured with
  | false => exact ⟨_, whenConfigured_false run hc⟩
  | true => rw [whenConfigured_true run hc]; exact h hc

theorem onChip_completes {s : State} {chip : Nat} (h : chip < s.chain.length) (f : Chip → Chip) :
    ∃ t, s.onChip chip f = .next t := by
  simp [State.onChip, h]

/-- Invariant I2: once configured, the visible window lies inside the buffer (`20_memory.md` R42). -/
theorem State.Inv.window_inside {s : State} (hs : s.Inv) (hc : s.configured = true) :
    8 + 8 * s.chipCount ≤ s.fbLen := by
  have := hs.window hc
  omega

/-- Only FBSHL, FBRDW and FLUSH can meet a column that does not exist, and all they reach lies in the window. -/
theorem exec_command_completes {i : Instr} {s : State} (hs : s.Inv) (hi : isCommand i = true) :
    ∃ t, exec i s = .next t := by
  cases i with
  | configure n rot rev =>
    simp only [exec, execConfigure]
    split
    · exact ⟨_, rfl⟩
    · exact ⟨_, rfl⟩
  | bcast | ucast | fbclr | fbwr =>
    simp only [exec, execBcast, execUcast, execFbclr, execFbwr]
    exact whenConfigured_completes fun _ => ⟨_, rfl⟩
  | mflip m axis => cases axis <;> exact ⟨_, rfl⟩
  | fbshl =>
    simp only [exec, execFbshl]
    refine whenConfigured_completes fun hc => ?_
    have hne : s.fbLen ≠ 0 := by have := hs.window_inside hc; omega
    rw [if_neg hne]
    exact ⟨_, rfl⟩
  | fbrdw =>
    simp only [exec, execFbrdw]
    refine whenConfigured_completes fun hc => ?_
    simp only [State.readWindow, readColumns_ok (.inr (hs.window_inside hc))]
    exact ⟨_, rfl⟩
  | flush =>
    simp only [exec, execFlush]
    refine whenConfigured_completes fun hc => ?_
    obtain ⟨_, he, -⟩ := flushSlices_ok (s := s) (slice := 0) (count := s.chipCount) (by omega)
      (by simpa using hs.window_inside hc)
    simp only [he]
    exact ⟨_, rfl⟩
  | mrot | mshift | minv | reserved0000 | reserved1101 | reserved1110 | reserved1111 => exact ⟨_, rfl⟩
  | wireNoop | wireCol0 | wireCol1 | wireCol2 | wireCol3 | wireCol4 | wireCol5 | wireCol6 | wireCol7 | wireOther =>
    cases hi

/-- Whatever its class, a pair only changes the chip that latches it. -/
theorem exec_decodePair_completes {s : State} {chip : Nat} (h : chip < s.chain.length) (p : Params)
    (word : BitVec 16) : ∃ t, exec (decodePair p chip word) s = .next t := by
  simp only [decodePair]
  split_ifs <;> exact onChip_completes h _

/-- Settles O39, by what the inbox begins with: nothing, ports that decode to an operation, or a chip that the chain
has. -/
theorem everyFittingStepCompletes : Obligations.EveryFittingStepCompletes := by
  intro s hs hports hchip
  match hin : s.inbox with
  | [] => exact ⟨s, step_of_idle (fetch_idle hin)⟩
  | .command q :: rest =>
    obtain ⟨-, -, -, -, -, -, hrun⟩ := hports q rest hin
    obtain ⟨i, hd, hi⟩ := decode_command_of_whole hrun
    obtain ⟨t, ht⟩ := exec_command_completes (hs.with_inbox rest) hi
    exact ⟨t, (step_of_run (fetch_command hin hd)).trans ht⟩
  | .latched chip :: rest =>
    have hlt := hchip chip rest hin
    obtain ⟨t, ht⟩ := exec_decodePair_completes (s := { s with inbox := rest }) hlt s.params _
    exact ⟨t, (step_of_run (fetch_latched hin (List.getElem?_eq_getElem hlt) rfl)).trans ht⟩

end Sys2Proof.Machine
end

section
/-! The two encoding levels (`30_encoding.md`): what the decoder finds in ports and in pairs, and what the operations it
finds for a reserved code and for a latched pair do. -/

namespace Sys2Proof.Machine

/-! ## Ports -/

theorem fitsUnsigned_zext (w n : Nat) : fitsUnsigned w (zext w n) = true :=
  decide_eq_true (zext_lt w n)

/-- Only the first `len` columns of a burst are taken, so only `len` has to keep within RUNMAX. -/
theorem wf_of_decodeRun {p : Params} {q : Ports} {i : Instr} (hlen : q.len ≤ p.runMax)
    (hd : decodeRun p q = .ok i) : i.wf p = true := by
  unfold decodeRun at hd
  split at hd
  · cases hd
  · cases hd
    have hrun : (q.run.take q.len).length ≤ p.runMax := (List.length_take_le _ _).trans hlen
    exact Bool.and_eq_true_iff.2 ⟨fitsSigned_sext _ _, decide_eq_true hrun⟩

/-- The decoder reads each port modulo its width, so RUNMAX is the only bound that the presentation itself has to keep. -/
theorem wf_of_decode_command {p : Params} {q : Ports} {i : Instr} (hlen : q.len ≤ p.runMax)
    (hd : decode p (.command q) = .ok i) : i.wf p = true := by
  simp only [decode, decodeCommand] at hd
  split at hd
  case h_10 => exact wf_of_decodeRun hlen hd
  case h_2 | h_4 =>
    cases hd
    exact fitsUnsigned_zext _ _
  case h_7 =>
    cases hd
    exact Bool.and_eq_true_iff.2 ⟨fitsSigned_sext _ _, fitsSigned_sext _ _⟩
  all_goals
    cases hd
    rfl

/-! ## Pairs -/

theorem pair_mkPair_of_command {chip : Nat} {word : BitVec 16} {c : Byte} (h : pairCommand word = c) :
    Encoded.pair chip (mkPair c (pairData word)) = .pair chip word := by
  rw [← h, mkPair_eta]

/-- The tests on the command byte settle its class: one that fails them all is neither the no-op command nor a column
command, and in every other class the command byte is the one that the class encodes. -/
theorem decodePair_class (p : Params) (chip : Nat) (word : BitVec 16) :
    (decodePair p chip word).wf p = true ∧ isCommand (decodePair p chip word) = false ∧
      encode p (decodePair p chip word) = .pair chip word := by
  simp only [decodePair]
  split_ifs with hnoop h0 h1 h2 h3 h4 h5 h6 h7
  case neg =>
    have hcol : ∀ j, pairCommand word ≠ p.colCmd j := by
      intro j
      fin_cases j <;> assumption
    exact ⟨wf_wireOther_iff.2 ⟨hnoop, hcol⟩, rfl, pair_mkPair_of_command rfl⟩
  all_goals exact ⟨rfl, rfl, pair_mkPair_of_command (by assumption)⟩

/-! ## A register of one chip -/

/-- Everything that writing a register of a chip of the chain does. -/
theorem onChip_setReg {s : State} {chip : Nat} (h : chip < s.chain.length) (c d : Byte) :
    ∃ chain, (s.onChip chip fun ch => ch.setReg c d) = .next { s with chain := chain } ∧
      chain.length = s.chain.length ∧
      (∀ i : Nat, ({ s with chain := chain } : State).chipPair i = s.chipPair i) ∧
      ({ s with chain := chain } : State).chipReg chip c = some d ∧
      ∀ (i : Nat) (e : Byte), i ≠ chip ∨ e ≠ c → ({ s with chain := chain } : State).chipReg i e = s.chipReg i e := by
  refine ⟨s.chain.set chip (s.chain[chip].setReg c d), by simp [State.onChip, h], List.length_set,
    chipPair_set_setReg s h c d, ?_, fun i e hne => ?_⟩
  · rw [chipReg_set_setReg, if_pos ⟨rfl, rfl⟩]
  · rw [chipReg_set_setReg, if_neg (not_and_or.2 hne)]

theorem onChip_id {s : State} {chip : Nat} (h : chip < s.chain.length) : s.onChip chip id = .next s := by
  simp [State.onChip, h]

/-! ## The obligations -/

/-- Settles O1, by `decode_encode`: the ports carry the operands of a command back, the command byte tells the wire
classes apart. -/
theorem decodeInvertsEncode : Obligations.DecodeInvertsEncode :=
  fun _ _ hp hi => decode_encode hp hi

/-- Settles O2: the whole burst makes the presentation decode, and `len` within RUNMAX makes what it decodes to
well-formed. -/
theorem fittingPortsDecodeToWellFormed : Obligations.FittingPortsDecodeToWellFormed := by
  rintro p q ⟨-, -, -, -, -, hlen, hrun⟩
  obtain ⟨i, hd, hi⟩ := decode_command_of_whole (p := p) hrun
  exact ⟨i, hd, wf_of_decode_command hlen hd, hi⟩

/-- Settles O3, by the class of the pair's command byte. -/
theorem pairsHaveOneClass : Obligations.PairsHaveOneClass :=
  fun p chip word => ⟨decodePair p chip word, rfl, decodePair_class p chip word⟩

/-- Settles O48: each kind of effect that an operation of the command port can have extends the trace by the events of
its response. -/
theorem responseCarriesTheNewEvents : Obligations.ResponseCarriesTheNewEvents := by
  intro i s t hc h
  cases exec_effect h with
  | answer r _ hb => exact ⟨r, rfl, by simp [hb]⟩
  | configure => exact ⟨_, rfl, by simp⟩
  | columns => exact ⟨_, rfl, (List.append_nil _).symm⟩
  | bus => exact ⟨_, rfl, rfl⟩
  | chips _ hw => exact absurd hc (by simp [hw])

/-- Settles O4, by the code on `op_sel`: the ports that the code's operation reads are those on which the presentations
agree. -/
theorem operationReadsOnlyItsPorts : Obligations.OperationReadsOnlyItsPorts := by
  intro p q q' hop hconf hbcast hucast hmrot hmflip hmshift hminv hfbwr
  simp only [decode, decodeCommand, ← hop]
  split
  case h_2 hk => simp only [hconf (BitVec.eq_of_toNat_eq hk)]
  case h_3 hk => simp only [hbcast (BitVec.eq_of_toNat_eq hk)]
  case h_4 hk => simp only [hucast (BitVec.eq_of_toNat_eq hk)]
  case h_5 hk => simp only [hmrot (BitVec.eq_of_toNat_eq hk)]
  case h_6 hk => simp only [hmflip (BitVec.eq_of_toNat_eq hk)]
  case h_7 hk => simp only [hmshift (BitVec.eq_of_toNat_eq hk)]
  case h_8 hk => simp only [hminv (BitVec.eq_of_toNat_eq hk)]
  case h_10 hk => simp only [decodeRun, hfbwr (BitVec.eq_of_toNat_eq hk)]
  all_goals rfl

/-- Settles O5, each word by running the decoder on it. -/
theorem specWordsDecode : Obligations.SpecWordsDecode := by
  unfold Obligations.SpecWordsDecode
  decide

/-- Settles O36: all four codes raise IllegalOp without a look at the configuration. -/
theorem reservedCodesAreIllegal : Obligations.ReservedCodesAreIllegal := by
  intro s i hi
  simp only [List.mem_cons, List.not_mem_nil, or_false] at hi
  rcases hi with rfl | rfl | rfl | rfl <;> exact raise_next s .illegalOp

/-- Settles O40: each of the eight classes writes the register of its column (`onChip_setReg`). -/
theorem columnPairWritesItsRegister : Obligations.ColumnPairWritesItsRegister := by
  intro s chip d h ij hij
  simp only [List.mem_cons, List.not_mem_nil, or_false] at hij
  rcases hij with rfl | rfl | rfl | rfl | rfl | rfl | rfl | rfl <;> exact onChip_setReg h _ d

/-- Settles O41: WIRE.NOOP puts the chip back as it was, WIRE.OTHER writes the register it numbers
(`onChip_setReg`, whatever the class of `c`). -/
theorem otherPairWritesTheRegisterItNames : Obligations.OtherPairWritesTheRegisterItNames :=
  fun _ _ c d h => ⟨onChip_id h, fun _ => onChip_setReg h c d⟩

end Sys2Proof.Machine
end

section
/-! CONFIGURE (`40_configure.md`): the columns of a grown buffer, and the next state for a legal and for a rejected
count. -/

namespace Sys2Proof.Machine

/-! ## Growing the framebuffer -/

theorem growTo_of_le {s : State} {need : Nat} (h : need ≤ s.fbLen) : s.growTo need = s :=
  if_neg h.not_gt

/-- Growing the buffer reads nothing of the configuration. -/
theorem growTo_with_configuration (s : State) (n : Nat) (rot : Rotation) (rev configured : Bool) (need : Nat) :
    State.growTo { s with chipCount := n, rotation := rot, reversed := rev, configured := configured } need =
      { s.growTo need with chipCount := n, rotation := rot, reversed := rev, configured := configured } := by
  unfold State.growTo
  split <;> rfl

theorem growTo_get_of_lt {s : State} (need : Nat) {i : Nat} (h : i < s.fbLen) :
    (s.growTo need).fb.get i = s.fb.get i := by
  unfold State.growTo
  split
  · rw [get_below, if_pos h]
  · rfl

/-- Whatever is listed beyond the old buffer is dropped, so an appended column reads zero. -/
theorem growTo_get_of_appended {s : State} {need i : Nat} (h : s.fbLen ≤ i) (hi : i < max s.fbLen need) :
    (s.growTo need).fb.get i = 0x00 := by
  have hgrows : s.fbLen < need := by omega
  rw [State.growTo, if_pos hgrows, get_below, if_neg h.not_gt]

/-! ## The two outcomes -/

theorem badChipCount_iff {p : Params} {n : Nat} : badChipCount p n = true ↔ n = 0 ∨ p.nmax < n := by
  simp [badChipCount]

theorem exec_configure_of_bad {s : State} {n : Nat} (rot : Rotation) (rev : Bool)
    (h : badChipCount s.params n = true) :
    exec (.configure n rot rev) s =
      .next { s with response := some { status := .configurationError, result := none, bus := [] } } := by
  simp only [exec, execConfigure, if_pos h, raise_next]

theorem exec_configure_of_legal {s : State} {n : Nat} (rot : Rotation) (rev : Bool)
    (h : ¬ badChipCount s.params n = true) :
    exec (.configure n rot rev) s =
      .next { s.growTo ((n + 2) * 8) with
        configured := true, chipCount := n, rotation := rot, reversed := rev
        response := some { status := .ok, result := none, bus := [] } } := by
  simp only [exec, execConfigure, if_neg h]
  rw [finish_next (bus := []) _ (by simp), growTo_with_configuration]

/-! ## The obligations -/

/-- Settles O8: of the grown buffer only the length and the appended columns are new. -/
theorem configureWritesConfiguration : Obligations.ConfigureWritesConfiguration := by
  intro s n rot rev h1 h2
  have hlegal : ¬ badChipCount s.params n = true := by rw [badChipCount_iff]; omega
  refine ⟨max s.fbLen ((n + 2) * 8), (s.growTo ((n + 2) * 8)).fb, ?_, rfl,
    fun i hi => growTo_get_of_lt _ hi, fun i h hi => growTo_get_of_appended h hi⟩
  rw [exec_configure_of_legal rot rev hlegal]
  simp only [growTo_params, growTo_fbLen, growTo_latch, growTo_trace, growTo_chain, growTo_inbox]

/-- Settles O10: a rejected count is rejected again, a legal one finds the buffer already long enough. -/
theorem configureIsIdempotent : Obligations.ConfigureIsIdempotent := by
  intro s t n rot rev ht
  by_cases hbad : badChipCount s.params n = true
  · rw [exec_configure_of_bad rot rev hbad] at ht
    cases ht
    exact exec_configure_of_bad rot rev hbad
  · rw [exec_configure_of_legal rot rev hbad] at ht
    cases ht
    rw [exec_configure_of_legal rot rev (by simpa using hbad), growTo_of_le (by simp)]

/-- Settles O9, by the check of the count. -/
theorem configureRejectsBadCount : Obligations.ConfigureRejectsBadCount :=
  fun _ _ rot rev h => exec_configure_of_bad rot rev (badChipCount_iff.2 h)

end Sys2Proof.Machine
end

section
/-! The matrix transform stages (`41_matrix_transform.md`): the columns of a mirrored matrix, the cells of a translated
one, and the laws by which rotations and flips compose. -/

namespace Sys2Proof.Machine

/-- A stage appends nothing to the trace, so its response has no bus event (R102). -/
theorem returnMatrix_next (s : State) (rm : Matrix8x8) :
    s.returnMatrix rm =
      .next { s with response := some { status := .ok, result := some (.matrix rm), bus := [] } } :=
  finish_next _ (List.append_nil _).symm

/-! ## Mirroring by columns -/

theorem columnByte_flipHorizontal (m : Matrix8x8) {x : Nat} (hx : x < 8) :
    columnByte (flipHorizontal m) x = columnByte m (7 - x) := by
  refine BitVec.eq_of_getLsbD_eq fun y hy => ?_
  rw [getLsbD_columnByte _ _ hy, getLsbD_columnByte _ _ hy, cell_flipHorizontal _ hx hy]

theorem columnByte_flipVertical (m : Matrix8x8) {x : Nat} (hx : x < 8) :
    columnByte (flipVertical m) x = (columnByte m x).reverse := by
  refine BitVec.eq_of_getLsbD_eq fun y hy => ?_
  have hmirror : (columnByte m x).reverse.getLsbD y = (columnByte m x).getLsbD (7 - y) := by
    rw [BitVec.getLsbD_reverse, BitVec.getMsbD_eq_getLsbD, decide_eq_true hy, Bool.true_and]
  rw [hmirror, getLsbD_columnByte _ _ hy, getLsbD_columnByte _ _ (by omega), cell_flipVertical _ hx hy]

theorem cols_flipHorizontal (m : Matrix8x8) : cols (flipHorizontal m) = (cols m).reverse := by
  have hrange : (List.range 8).reverse = (List.range 8).map (7 - ·) := by decide
  rw [cols, cols, ← List.map_reverse, hrange, List.map_map]
  exact List.map_congr_left fun x hx => columnByte_flipHorizontal m (List.mem_range.1 hx)

theorem cols_flipVertical (m : Matrix8x8) : cols (flipVertical m) = (cols m).map BitVec.reverse := by
  rw [cols, cols, List.map_map]
  exact List.map_congr_left fun x hx => columnByte_flipVertical m (List.mem_range.1 hx)

/-! ## Translating -/

theorem cellOrZero_natCast (m : Matrix8x8) {x y : Nat} (hx : x < 8) (hy : y < 8) :
    cellOrZero m x y = cell m x y :=
  if_pos (by omega)

theorem cellOrZero_of_off_grid (m : Matrix8x8) {u v : Int}
    (h : ∀ x y : Nat, x < 8 → y < 8 → ¬ (u = x ∧ v = y)) : cellOrZero m u v = false :=
  if_neg fun hgrid => h u.toNat v.toNat (by omega) (by omega) (by omega)

theorem cell_zero (x y : Nat) : cell 0 x y = false := BitVec.getLsbD_zero

/-- The zero matrix reads 0 on the grid and off it. -/
theorem cellOrZero_zero (u v : Int) : cellOrZero 0 u v = false := by
  rw [cellOrZero, cell_zero, ite_self]

theorem shiftMatrix_zero_zero (m : Matrix8x8) : shiftMatrix m 0 0 = m := by
  refine matrix_ext fun a ha b hb => ?_
  rw [cell_shiftMatrix _ _ _ ha hb, Int.sub_zero, Int.sub_zero, cellOrZero_natCast _ ha hb]

theorem shiftMatrix_of_zero (dx dy : Int) : shiftMatrix 0 dx dy = 0 := by
  refine matrix_ext fun a ha b hb => ?_
  rw [cell_shiftMatrix _ _ _ ha hb, cellOrZero_zero, cell_zero]

/-! ## Composing rotations and flips -/

theorem rotate_ccw90_cw90 (m : Matrix8x8) : rotate (rotate m .cw90) .ccw90 = m := by
  refine matrix_ext fun a ha b hb => ?_
  rw [cell_ccw90 _ ha hb, cell_cw90 _ (by omega) ha, Nat.sub_sub_self (by omega)]

theorem rotate_cw90_ccw90 (m : Matrix8x8) : rotate (rotate m .ccw90) .cw90 = m := by
  refine matrix_ext fun a ha b hb => ?_
  rw [cell_cw90 _ ha hb, cell_ccw90 _ hb (by omega), Nat.sub_sub_self (by omega)]

theorem rotate_half_eq_cw90_cw90 (m : Matrix8x8) : rotate m .half = rotate (rotate m .cw90) .cw90 := by
  refine matrix_ext fun a ha b hb => ?_
  rw [cell_half _ ha hb, cell_cw90 _ ha hb, cell_cw90 _ hb (by omega)]

theorem rotate_half_eq_ccw90_ccw90 (m : Matrix8x8) : rotate m .half = rotate (rotate m .ccw90) .ccw90 := by
  refine matrix_ext fun a ha b hb => ?_
  rw [cell_half _ ha hb, cell_ccw90 _ ha hb, cell_ccw90 _ (by omega) ha]

theorem flipHorizontal_flipHorizontal (m : Matrix8x8) : flipHorizontal (flipHorizontal m) = m := by
  refine matrix_ext fun a ha b hb => ?_
  rw [cell_flipHorizontal _ ha hb, cell_flipHorizontal _ (by omega) hb, Nat.sub_sub_self (by omega)]

theorem flipVertical_flipVertical (m : Matrix8x8) : flipVertical (flipVertical m) = m := by
  refine matrix_ext fun a ha b hb => ?_
  rw [cell_flipVertical _ ha hb, cell_flipVertical _ ha (by omega), Nat.sub_sub_self (by omega)]

theorem flipVertical_flipHorizontal (m : Matrix8x8) : flipVertical (flipHorizontal m) = rotate m .half := by
  refine matrix_ext fun a ha b hb => ?_
  rw [cell_half _ ha hb, cell_flipVertical _ ha hb, cell_flipHorizontal _ ha (by omega)]

theorem flipHorizontal_flipVertical (m : Matrix8x8) : flipHorizontal (flipVertical m) = rotate m .half := by
  refine matrix_ext fun a ha b hb => ?_
  rw [cell_half _ ha hb, cell_flipHorizontal _ ha hb, cell_flipVertical _ (by omega) hb]

/-! ## The obligations -/

/-- Settles O23, from the inverse quarter turns and the half turn as two quarter turns either way; the other laws of
rotation follow from these. -/
theorem matrixTransformLaws : Obligations.MatrixTransformLaws := by
  intro m
  refine ⟨?fourCw, ?fourCcw, rotate_half_eq_cw90_cw90 m, rotate_half_eq_ccw90_ccw90 m, rotate_ccw90_cw90 m,
    rotate_cw90_ccw90 m, ?cwHalf, flipHorizontal_flipHorizontal m, flipVertical_flipVertical m,
    flipVertical_flipHorizontal m, flipHorizontal_flipVertical m, shiftMatrix_zero_zero m, shiftMatrix_of_zero,
    BitVec.not_not⟩
  case fourCw =>
    rw [← rotate_half_eq_cw90_cw90, rotate_half_eq_ccw90_ccw90, rotate_ccw90_cw90, rotate_ccw90_cw90]
  case fourCcw =>
    rw [← rotate_half_eq_ccw90_ccw90, rotate_half_eq_cw90_cw90, rotate_cw90_ccw90, rotate_cw90_ccw90]
  case cwHalf =>
    rw [rotate_half_eq_ccw90_ccw90, rotate_ccw90_cw90]

/-- Settles O19: the cell that each direction moves is read where it lands. -/
theorem mrotReturnsTheRotatedMatrix : Obligations.MrotReturnsTheRotatedMatrix := by
  refine fun s m dir => ⟨rotate m dir, returnMatrix_next s _, ?unturned, fun x hx y hy => ⟨?cw90, ?ccw90, ?half⟩⟩
  all_goals rintro rfl
  case unturned => rfl
  case cw90 => rw [cell_cw90 _ (by omega) hx, Nat.sub_sub_self (by omega)]
  case ccw90 => rw [cell_ccw90 _ hy (by omega), Nat.sub_sub_self (by omega)]
  case half => rw [cell_half _ (by omega) (by omega), Nat.sub_sub_self (by omega), Nat.sub_sub_self (by omega)]

/-- Settles O20, by columns (`cols_flipHorizontal`, `cols_flipVertical`) and by cells. -/
theorem mflipReturnsTheMirroredMatrix : Obligations.MflipReturnsTheMirroredMatrix :=
  fun s m => ⟨returnMatrix_next s m,
    ⟨_, returnMatrix_next s _, cols_flipHorizontal m, fun _ hx _ hy => cell_flipHorizontal m hx hy⟩,
    ⟨_, returnMatrix_next s _, cols_flipVertical m, fun _ hx _ hy => cell_flipVertical m hx hy⟩,
    raise_next s .illegalOp⟩

/-- Settles O21: a cell of the result is read at its source, which is a cell of the operand or off the grid. -/
theorem mshiftReturnsTheTranslatedMatrix : Obligations.MshiftReturnsTheTranslatedMatrix := by
  refine fun s m dx dy => ⟨shiftMatrix m dx dy, returnMatrix_next s _, ?landing, ?vacated, ?unmoved⟩
  case landing =>
    intro a b x y ha hb hx hy hax hby
    have hsx : (a : Int) - dx = x := by omega
    have hsy : (b : Int) - dy = y := by omega
    rw [cell_shiftMatrix _ _ _ ha hb, hsx, hsy, cellOrZero_natCast _ hx hy]
  case vacated =>
    intro a b ha hb hsource
    rw [cell_shiftMatrix _ _ _ ha hb]
    exact cellOrZero_of_off_grid m fun x y hx hy hxy => hsource x y hx hy (by omega)
  case unmoved =>
    rintro rfl rfl
    exact shiftMatrix_zero_zero m

/-- Settles O22, by the cells of the complement. -/
theorem minvReturnsTheComplement : Obligations.MinvReturnsTheComplement :=
  fun s m => ⟨~~~m, returnMatrix_next s _, fun _ hx _ hy => cell_not m hx hy⟩

end Sys2Proof.Machine
end

section
/-! The chain command encoder (`42_chain_encoder.md`): the slots of a transaction, what BCAST and UCAST answer, the chain
as one shift register, what a chip does with the pair it holds, and what a flush lights. -/

namespace Sys2Proof.Machine

/-! ## The wire byte -/

/-- The two cases of `42_chain_encoder.md` R111. -/
theorem wire_eq_sent {p : Params} {cmd data sent : Byte}
    (h : ((∃ j : Fin 8, cmd = p.colCmd j) ∧ sent = data ^^^ 0xFF) ∨ ((∀ j : Fin 8, cmd ≠ p.colCmd j) ∧ sent = data)) :
    p.wire cmd data = sent := by
  rcases h with ⟨⟨j, rfl⟩, rfl⟩ | ⟨hcol, rfl⟩
  · rw [wire_colCmd, ← BitVec.xor_allOnes]
    rfl
  · refine if_neg fun hc => ?_
    obtain ⟨j, hj⟩ := (isColumnCmd_iff p cmd).1 hc
    exact hcol j hj.symm

/-! ## Slots -/

/-- Where every element gives two entries, element `t` gives entries `2t` and `2t + 1`. -/
theorem getElem?_flatMap_pair {α β : Type} (f g : α → β) {as : List α} {t : Nat} {a : α} (h : as[t]? = some a) :
    (as.flatMap fun a => [f a, g a])[2 * t]? = some (f a) ∧
      (as.flatMap fun a => [f a, g a])[2 * t + 1]? = some (g a) := by
  induction as generalizing t with
  | nil => cases h
  | cons b as ih =>
    cases t with
    | zero =>
      cases h
      exact ⟨rfl, rfl⟩
    | succ t => exact ih h

theorem frame_getElem?_first (pairs : List (Byte × Byte)) : (frame pairs)[0]? = some (.latch false) := rfl

theorem frame_getElem?_last (pairs : List (Byte × Byte)) :
    (frame pairs)[2 * pairs.length + 1]? = some (.latch true) := by
  have hlast : 2 * pairs.length + 1 = (frame pairs).length - 1 := by simp
  rw [hlast, ← List.getLast?_eq_getElem?, frame, List.getLast?_append_cons, List.getLast?_singleton]

/-- The falling latch stands before slot 0, so slot `t` is events `2t + 1` and `2t + 2` (`42_chain_encoder.md` R116). -/
theorem frame_getElem?_slot {pairs : List (Byte × Byte)} {t : Nat} {pair : Byte × Byte} (h : pairs[t]? = some pair) :
    (frame pairs)[2 * t + 1]? = some (.byte pair.1) ∧ (frame pairs)[2 * t + 2]? = some (.byte pair.2) := by
  obtain ⟨hcmd, hdata⟩ := getElem?_flatMap_pair (fun p => BusEvent.byte p.1) (fun p => BusEvent.byte p.2) h
  obtain ⟨hlt, -⟩ := List.getElem?_eq_some_iff.1 hdata
  exact ⟨(List.getElem?_append_left (Nat.succ_lt_succ (Nat.lt_of_succ_lt hlt))).trans hcmd,
    (List.getElem?_append_left (Nat.succ_lt_succ hlt)).trans hdata⟩

theorem frame_broadcastPairs (p : Params) (n : Nat) (cmd data : Byte) :
    frame (broadcastPairs p n cmd data) =
      [.latch false] ++ (List.replicate n [BusEvent.byte cmd, BusEvent.byte (p.wire cmd data)]).flatten ++
        [.latch true] := by
  rw [frame, broadcastPairs, List.flatMap_replicate]
  rfl

/-! ## What BCAST and UCAST answer -/

section
variable {s : State} (hs : s.configured = true) (cmd data : Byte)
include hs

theorem exec_bcast_of_configured :
    exec (.bcast cmd data) s =
      .next { s with
        latch := .high
        trace := s.trace ++ frame (broadcastPairs s.params s.chipCount cmd data)
        chain := chainAfter s.params.cmdNoop s.chain (broadcastPairs s.params s.chipCount cmd data)
        response := some
          { status := .ok, result := none, bus := frame (broadcastPairs s.params s.chipCount cmd data) } } := by
  rw [exec_bcast_next hs, transaction_eq]

theorem exec_ucast_of_lt {idx : Nat} (h : idx < s.chipCount) :
    exec (.ucast cmd data idx) s =
      .next { s with
        latch := .high
        trace := s.trace ++ frame (unicastPairs s.params s.chipCount cmd data idx)
        chain := chainAfter s.params.cmdNoop s.chain (unicastPairs s.params s.chipCount cmd data idx)
        response := some
          { status := .ok, result := none, bus := frame (unicastPairs s.params s.chipCount cmd data idx) } } := by
  simp only [exec, execUcast, whenConfigured_true _ hs, unicast_of_lt cmd data h]
  rw [finish_next _ rfl]

theorem exec_ucast_of_ge {idx : Nat} (h : s.chipCount ≤ idx) :
    exec (.ucast cmd data idx) s = .next { s with response := some { status := .ok, result := none, bus := [] } } := by
  simp only [exec, execUcast, whenConfigured_true _ hs, unicast_of_ge cmd data h]
  rw [finish_next _ (List.append_nil _).symm]

/-- Whatever the index, a UCAST is its unicast and a response, which no register of a chip depends on. -/
theorem exec_ucast_chipReg (idx : Nat) :
    ∃ t, exec (.ucast cmd data idx) s = .next t ∧ ∀ i c, t.chipReg i c = (s.unicast cmd data idx).chipReg i c := by
  simp only [exec, execUcast, whenConfigured_true _ hs]
  exact ⟨_, rfl, fun _ _ => rfl⟩

/-- The registers of the chips after a BCAST, under premise P1: the no-op command writes none
(`42_chain_encoder.md` R124). -/
theorem exec_bcast_chipReg (hm : s.ChainMatches) :
    ∃ t, exec (.bcast cmd data) s = .next t ∧ ∀ i c,
      t.chipReg i c =
        if cmd ≠ s.params.cmdNoop ∧ i < s.chipCount ∧ c = cmd then some (s.params.wire cmd data) else s.chipReg i c := by
  have hm : s.chain.length = s.chipCount := hm
  refine ⟨_, exec_bcast_next hs cmd data, fun i c => ?_⟩
  change (s.transaction (broadcastPairs s.params s.chipCount cmd data)).chipReg i c = _
  by_cases hi : i < s.chipCount
  · rw [transaction_chipReg (by simp [hm]) i c (broadcastPairs_getElem? _ cmd data hi)]
    simp only [hi, true_and]
  · rw [transaction_chipReg_none (by omega), if_neg (by simp [hi])]

end

/-! ## The chain as one shift register -/

theorem heldBytes_writeBytes (s : State) (bytes : List Byte) :
    heldBytes (bytes.foldl State.writeByte s).chain = (heldBytes s.chain ++ bytes).drop bytes.length := by
  induction bytes generalizing s with
  | nil => simp
  | cons v bytes ih =>
    have hle : 1 ≤ (heldBytes s.chain ++ [v]).length := by simp
    rw [List.foldl_cons, ih, writeByte_chain, heldBytes_shiftIn_drop, ← List.drop_append_of_le_length hle,
      List.drop_drop, List.append_assoc, List.singleton_append, List.length_cons, Nat.add_comm]

theorem regs_writeBytes (s : State) (bytes : List Byte) :
    (bytes.foldl State.writeByte s).chain.map Chip.regs = s.chain.map Chip.regs := by
  induction bytes generalizing s with
  | nil => rfl
  | cons v bytes ih => rw [List.foldl_cons, ih, writeByte_chain, regs_shiftIn]

/-! ## What a chip does with the pair it holds -/

theorem chipReg_of_getElem? {s : State} {i : Nat} {chip : Chip} (h : s.chain[i]? = some chip) (c : Byte) :
    s.chipReg i c = some (chip.regs.read i c) := by
  rw [State.chipReg, h]

theorem getElem?_map_chain {f : Chip → Chip} {chain : List Chip} {i : Nat} {chip : Chip} (h : chain[i]? = some chip) :
    (chain.map f)[i]? = some (f chip) := by
  rw [List.getElem?_map, h, Option.map_some]

/-- A chip that has forgotten reads the free value of its next round. -/
theorem read_forget (chip : Chip) (i : Nat) (c : Byte) :
    chip.forget.regs.read i c = Config.chipRegister i (chip.regs.unknowns + 1) c := rfl

/-- Only what the change does to the chip at `i` matters, not what it would do to another. -/
theorem onChip_eq_modify {s : State} {i : Nat} {chip : Chip} {f g : Chip → Chip} (h : s.chain[i]? = some chip)
    (hfg : f chip = g chip) : s.onChip i f = .next { s with chain := s.chain.modify i g } := by
  simp [State.onChip, List.modify_eq_set_getElem?, h, hfg]

theorem commit_of_noop {noop : Byte} {chip : Chip} (h : chip.first = noop) : chip.commit noop = chip :=
  if_pos h

theorem commit_of_ne_noop {noop : Byte} {chip : Chip} (h : chip.first ≠ noop) :
    chip.commit noop = chip.setReg chip.first chip.second :=
  if_neg h

theorem commit_of_column {p : Params} {chip : Chip} {j : Fin 8} (hnoop : chip.first ≠ p.cmdNoop)
    (hcol : chip.first = p.colCmd j) : chip.commit p.cmdNoop = chip.setReg (p.colCmd j) chip.second := by
  rw [commit_of_ne_noop hnoop, hcol]

/-! ## What a flush lights -/

/-- The registers of the chips after FLUSH, under premise P1 (`44_display_flush.md` R154). -/
theorem exec_flush_chipReg {s : State} (hp : s.params.Legal) (hs : s.configured = true) (hm : s.ChainMatches)
    (hl : 8 * s.chipCount + 8 ≤ s.fbLen) :
    ∃ t, exec .flush s = .next t ∧
      (∀ slice < s.chipCount, ∀ j : Fin 8,
        t.chipReg (sliceToChipIndex slice s.chipCount s.reversed) (s.params.colCmd j) =
          some (~~~(sliceColumns s slice).getD j 0)) ∧
      (∀ i c, s.params.isColumnCmd c = false → t.chipReg i c = s.chipReg i c) := by
  obtain ⟨chain, hflush, -, -⟩ := flushSlices_ok (s := s) (slice := 0) (count := s.chipCount) (by omega) (by omega)
  obtain ⟨hcol, -, hother⟩ := flushSlices_chipReg hp hm (by omega) (by omega) hflush
  simp only [exec, execFlush, whenConfigured_true _ hs, hflush]
  exact ⟨_, rfl, fun slice hslice => hcol slice (Nat.zero_le _) (by omega), hother⟩

/-- Column `j` of an unrotated slice is that column of the framebuffer. -/
theorem sliceColumns_getD_of_unrotated {s : State} (h : s.rotation = .none) (slice : Nat) (j : Fin 8) :
    (sliceColumns s slice).getD j 0 = s.fb.get (8 + 8 * slice + j) := by
  rw [sliceColumns, h, rotate, getD_cols _ j.isLt, columnByte_mat _ j.isLt]
  simp [List.getD_eq_getElem?_getD]

/-- A cell is lit by the complement of its register (`42_chain_encoder.md` R123). -/
theorem lit_of_chipReg {s : State} {i : Nat} {j : Fin 8} {b : Byte}
    (h : s.chipReg i (s.params.colCmd j) = some (~~~b)) (y : Nat) : s.lit i j y = some (b.getLsbD y) := by
  rw [State.lit, h, Option.map_some, BitVec.not_not]

theorem column_of_lt {s : State} {i : Nat} (h : i < s.fbLen) : s.column i = some (s.fb.get i) :=
  if_pos h

/-! ## The obligations -/

/-- Settles O12: a configured BCAST is one transaction of equal pairs. -/
theorem bcastSendsTheSamePairToEverySlot : Obligations.BcastSendsTheSamePairToEverySlot :=
  fun s cmd data hs =>
    ⟨_, _, exec_bcast_of_configured hs cmd data, frame_broadcastPairs s.params s.chipCount cmd data, by simp, by simp⟩

/-- Settles O13: a UCAST in range is one transaction, read slot by slot. -/
theorem ucastSendsThePairInItsSlot : Obligations.UcastSendsThePairInItsSlot := by
  intro s cmd data idx hs hidx
  refine ⟨_, _, exec_ucast_of_lt hs cmd data hidx, by simp, frame_getElem?_first _, ?last, fun t ht => ?slot, by simp⟩
  case last => simpa using frame_getElem?_last (unicastPairs s.params s.chipCount cmd data idx)
  case slot =>
    have hslot := frame_getElem?_slot (unicastPairs_getElem? s.params cmd data idx ht)
    split_ifs at hslot ⊢ <;> exact hslot

/-- Settles O14: out of range there is no transaction. -/
theorem ucastOutOfRangeDoesNothing : Obligations.UcastOutOfRangeDoesNothing :=
  fun _ cmd data _ hs hidx => exec_ucast_of_ge hs cmd data hidx

/-- Settles O11: slot `idx` of either transaction holds the command byte and the wire byte. -/
theorem columnDataIsComplementedOnWire : Obligations.ColumnDataIsComplementedOnWire := by
  intro s cmd data sent hs hsent
  obtain rfl := wire_eq_sent hsent
  refine ⟨rfl, fun idx hidx i hi => ?_⟩
  simp only [List.mem_cons, List.not_mem_nil, or_false] at hi
  rcases hi with rfl | rfl
  · exact ⟨_, _, exec_bcast_of_configured hs cmd data, rfl,
      frame_getElem?_slot (broadcastPairs_getElem? s.params cmd data hidx)⟩
  · have hpair := unicastPairs_getElem? s.params cmd data idx hidx
    rw [if_pos rfl] at hpair
    exact ⟨_, _, exec_ucast_of_lt hs cmd data hidx, rfl, frame_getElem?_slot hpair⟩

/-- Settles O15: the bytes written push out all that the chain held, so it holds exactly them. -/
theorem chainHoldsTheLastBytes : Obligations.ChainHoldsTheLastBytes := by
  intro s bytes hlen i before hbefore
  have hheld : heldBytes (bytes.foldl State.writeByte s).chain = bytes := by
    rw [heldBytes_writeBytes, hlen, ← length_heldBytes, List.drop_left]
  have hregs := congrArg (·[i]?) (regs_writeBytes s bytes)
  simp only [List.getElem?_map, hbefore, Option.map_some, Option.map_eq_some_iff] at hregs
  obtain ⟨after, hafter, hkept⟩ := hregs
  obtain ⟨hfirst, hsecond⟩ := getElem?_flatMap_pair Chip.first Chip.second hafter
  rw [← heldBytes, hheld] at hfirst hsecond
  exact ⟨after, hafter, hfirst, hsecond, hkept⟩

/-- Settles O16: the level before decides what `setLatch(true)` does to every chip, commit its pair from low, forget its
registers from unknown. -/
theorem risingLatchCommitsEveryPair : Obligations.RisingLatchCommitsEveryPair := by
  refine fun s => ⟨rfl, chipPair_setLatch s true, fun hlow i chip hchip c => ?low,
    fun hunknown i chip hchip c => ?unknown⟩
  case low =>
    have hafter : (s.setLatch true).chain[i]? = some (chip.commit s.params.cmdNoop) := by
      rw [setLatch_chain, hlow]
      exact getElem?_map_chain hchip
    rw [chipReg_of_getElem? hafter, chipReg_of_getElem? hchip, commit_reg, apply_ite some]
  case unknown =>
    have hafter : (s.setLatch true).chain[i]? = some chip.forget := by
      rw [setLatch_chain, hunknown]
      exact getElem?_map_chain hchip
    rw [chipReg_of_getElem? hafter, read_forget]

/-- Settles O17, by the registers after a BCAST. -/
theorem broadcastReachesEveryChip : Obligations.BroadcastReachesEveryChip := by
  intro s cmd data hs hm hcmd
  obtain ⟨t, ht, hreg⟩ := exec_bcast_chipReg hs cmd data hm
  refine ⟨t, ht, fun i hi => ?_, fun i c hc => ?_⟩
  · rw [hreg, if_pos ⟨hcmd, hi, rfl⟩]
  · rw [hreg, if_neg fun ⟨_, _, he⟩ => hc he]

/-- Settles O18: a UCAST in range writes the one register of `unicast_chipReg`, one out of range and a BCAST of the no-op
command write none. -/
theorem unicastReachesOneChip : Obligations.UnicastReachesOneChip := by
  intro s cmd data idx hs hm
  refine ⟨?unicast, fun hnoop => ?broadcastNoop⟩
  case unicast =>
    obtain ⟨t, ht, hreg⟩ := exec_ucast_chipReg hs cmd data idx
    refine ⟨t, ht, fun hcmd hidx => ?_, fun i c hother => ?_⟩
    · rw [hreg, unicast_chipReg hm hidx, if_pos ⟨hcmd, rfl, rfl⟩]
    · rw [hreg]
      by_cases hidx : idx < s.chipCount
      · rw [unicast_chipReg hm hidx, if_neg]
        rintro ⟨hcmd, hi, hc⟩
        rcases hother with hnoop | hout | hchip | hregister
        exacts [hcmd hnoop, hidx.not_ge hout, hchip hi, hregister hc]
      · rw [unicast_of_ge _ _ (Nat.not_lt.1 hidx)]
  case broadcastNoop =>
    obtain ⟨t, ht, hreg⟩ := exec_bcast_chipReg hs cmd data hm
    exact ⟨t, ht, fun i c => by rw [hreg, if_neg fun ⟨hne, _⟩ => hne hnoop]⟩

/-- Settles O42: a commit and the class of a pair both go by the command byte. -/
theorem commitFollowsTheDecodeTable : Obligations.CommitFollowsTheDecodeTable := by
  intro s i chip instr hchip hd
  cases hd
  simp only [decodePair, pairCommand_mkPair, pairData_mkPair]
  split_ifs with hnoop h0 h1 h2 h3 h4 h5 h6 h7
  case pos => exact onChip_eq_modify hchip (commit_of_noop hnoop).symm
  case neg => exact onChip_eq_modify hchip (commit_of_ne_noop hnoop).symm
  all_goals exact onChip_eq_modify hchip (commit_of_column hnoop (by assumption)).symm

/-- Settles O47: only the effect of BCAST, UCAST and FLUSH has transactions; every other leaves trace and latch. -/
theorem traceIsWholeTransactions : Obligations.TraceIsWholeTransactions := by
  intro i s t h
  cases exec_effect h with
  | bus transactions _ _ hl => exact ⟨transactions, hl, rfl, rfl⟩
  | configure => exact ⟨[], by simp, by simp, by simp⟩
  | answer | columns | chips => exact ⟨[], by simp, (List.append_nil _).symm, rfl⟩

/-- Settles O33: the register of column `j` holds the complement of the column, and a cell is lit by the complement of
its register. -/
theorem flushLightsTheSetCells : Obligations.FlushLightsTheSetCells := by
  intro s hp hs hm hl hrot
  obtain ⟨t, ht, hreg, -⟩ := exec_flush_chipReg hp hs hm hl
  refine ⟨t, ht, fun slice hslice j y _ => ?_⟩
  have hcol := hreg slice hslice j
  rw [sliceColumns_getD_of_unrotated hrot, ← (exec_effect ht).params_eq] at hcol
  rw [lit_of_chipReg hcol, column_of_lt (by omega), Option.map_some]

end Sys2Proof.Machine
end

section
/-! The framebuffer operations (`43_framebuffer.md`): the columns a run covers and leaves, the start of a clamped run, and
the next state of each operation on a configured block. -/

namespace Sys2Proof.Machine

/-! ## The columns of a written run -/

/-- What the bound clips is written nowhere, so inside the bound the run is read back. -/
theorem get_setRun_of_inside (m : Memory) {bound start k : Nat} {run : List Byte} (hk : k < run.length)
    (hb : start + k < bound) : (m.setRun bound start run).get (start + k) = run.getD k 0 := by
  rw [get_setRun, if_pos ⟨Nat.le_add_right _ _, hb⟩]
  simp [hk]

theorem get_setRun_of_outside (m : Memory) {bound start i : Nat} {run : List Byte}
    (h : i < start ∨ start + run.length ≤ i ∨ bound ≤ i) : (m.setRun bound start run).get i = m.get i := by
  rw [get_setRun]
  split
  next hin => rw [List.getElem?_eq_none (by omega), Option.getD_none]
  next => rfl

/-- An unclipped run written and moved down is the run written one index lower into the moved columns: the last index,
where only the move writes, lies above the lowered run. -/
theorem get_down_setRun (m : Memory) {bound start i : Nat} {run : List Byte} (h : start + 1 + run.length ≤ bound)
    (hi : i < bound) :
    ((m.setRun bound (start + 1) run).down.set (bound - 1) 0).get i =
      ((m.down.set (bound - 1) 0).setRun bound start run).get i := by
  by_cases hlast : i = bound - 1
  · rw [get_setRun_of_outside _ (by omega), get_set, get_set, if_pos hlast, if_pos hlast]
  · have hcovered : start + 1 ≤ i + 1 ∧ i + 1 < bound ↔ start ≤ i ∧ i < bound := by omega
    simp only [get_set, get_down, get_setRun, if_neg hlast, hcovered, Nat.add_sub_add_right]

/-- The columns that exist are the bytes below `fbLen`. -/
theorem column_congr {s t : State} (hl : s.fbLen = t.fbLen) (hfb : ∀ i < s.fbLen, s.fb.get i = t.fb.get i) (i : Nat) :
    s.column i = t.column i := by
  unfold State.column
  rw [← hl]
  split
  next hi => rw [hfb i hi]
  next => rfl

/-! ## The clamped start -/

/-- With `-8 ≤ fbLen - 9` the clamp is a `max` of a `min`, and the start is no negative number cut off. -/
theorem runStart_eq {fbLen : Nat} (h : 0 < fbLen) (off : Int) :
    (runStart fbLen off : Int) = max (-8) (min off ((fbLen : Int) - 9)) + 8 := by
  unfold runStart clamp
  split_ifs <;> omega

theorem runStart_of_low {fbLen : Nat} (h : 0 < fbLen) {off : Int} (hoff : off < -8) :
    runStart fbLen off = runStart fbLen (-8) := by
  have hl := runStart_eq h off
  have hr := runStart_eq h (-8)
  omega

theorem runStart_of_high {fbLen : Nat} (h : 0 < fbLen) {off : Int} (hoff : (fbLen : Int) - 9 < off) :
    runStart fbLen off = runStart fbLen ((fbLen : Int) - 9) := by
  have hl := runStart_eq h off
  have hr := runStart_eq h ((fbLen : Int) - 9)
  omega

/-! ## The next state of each operation -/

/-- An operation that only replaces the columns has no bus event and no result. -/
theorem finish_columns (s : State) (fb : Memory) :
    State.finish { s with fb := fb } s none =
      .next { s with fb := fb, response := some { status := .ok, result := none, bus := [] } } :=
  finish_next _ (List.append_nil _).symm

section
variable {s : State} (hs : s.configured = true)
include hs

theorem exec_fbclr_of_configured :
    exec .fbclr s =
      .next { s with fb := [], response := some { status := .ok, result := none, bus := [] } } := by
  simp only [exec, execFbclr, whenConfigured_true _ hs, finish_columns]

theorem exec_fbwr_of_configured (off : Int) (run : List Byte) :
    exec (.fbwr off run) s =
      .next { s with
        fb := s.fb.setRun s.fbLen (runStart s.fbLen off) run
        response := some { status := .ok, result := none, bus := [] } } := by
  simp only [exec, execFbwr, whenConfigured_true _ hs, finish_columns]

/-- FBWR reads its offset only through the clamped start (`30_encoding.md` R67). -/
theorem exec_fbwr_congr {off off' : Int} (h : runStart s.fbLen off = runStart s.fbLen off') (run : List Byte) :
    exec (.fbwr off run) s = exec (.fbwr off' run) s := by
  rw [exec_fbwr_of_configured hs, exec_fbwr_of_configured hs, h]

theorem exec_fbshl_of_configured (hl : 0 < s.fbLen) :
    exec .fbshl s =
      .next { s with
        fb := s.fb.down.set (s.fbLen - 1) 0
        response := some { status := .ok, result := none, bus := [] } } := by
  simp only [exec, execFbshl, whenConfigured_true _ hs, if_neg hl.ne', finish_columns]

theorem exec_fbrdw_of_configured (hl : 8 * s.chipCount + 8 ≤ s.fbLen) :
    exec .fbrdw s =
      .next { s with
        response := some
          { status := .ok, result := some (.window ((List.range' 8 (8 * s.chipCount)).map s.fb.get)), bus := [] } } := by
  have hread : s.readWindow = .ok ((List.range' 8 (8 * s.chipCount)).map s.fb.get) := readColumns_ok (.inr (by omega))
  simp only [exec, execFbrdw, whenConfigured_true _ hs, hread]
  exact finish_next _ (List.append_nil _).symm

end

/-! ## The obligations -/

/-- Settles O26: the run is read back where it was written, and every other byte is outside of it. -/
theorem fbwrWritesTheClampedRun : Obligations.FbwrWritesTheClampedRun := fun s off run hs hl =>
  ⟨_, runStart s.fbLen off, exec_fbwr_of_configured hs off run, runStart_eq (by omega) off,
    fun _ hk hb => get_setRun_of_inside s.fb hk hb, fun _ h => get_setRun_of_outside s.fb h⟩

/-- Settles O27: an offset beyond either end of the clamp has the start of that end, and an empty run leaves the
memory. -/
theorem fbwrClampCorners : Obligations.FbwrClampCorners := fun s off run hs hl =>
  have hpos : 0 < s.fbLen := by omega
  ⟨fun hoff => exec_fbwr_congr hs (runStart_of_low hpos hoff) run,
    fun hoff => exec_fbwr_congr hs (runStart_of_high hpos hoff) run, exec_fbwr_of_configured hs off []⟩

/-- Settles O28: below the last index a column is the one above it, and the last is written zero. -/
theorem fbshlMovesEveryColumnDown : Obligations.FbshlMovesEveryColumnDown := by
  refine fun s hs hl => ⟨_, exec_fbshl_of_configured hs hl, fun i hi => ?below, ?last⟩
  case below =>
    have hne : i ≠ s.fbLen - 1 := by omega
    rw [get_set, if_neg hne, get_down]
  case last => rw [get_set, if_pos rfl]

/-- Settles O29: the window lies inside the buffer, so each of its bytes is a column. -/
theorem fbrdwReturnsTheWindow : Obligations.FbrdwReturnsTheWindow := by
  refine fun s hs hl => ⟨_, exec_fbrdw_of_configured hs hl, by simp, fun j hj => ?_⟩
  rw [column_of_lt (by omega)]
  simp [hj]

/-- Settles O30: unclamped, the second offset starts one index below the first, and FBSHL moves the unclipped run there
(`get_down_setRun`). -/
theorem writeThenShiftIsShiftThenWrite : Obligations.WriteThenShiftIsShiftThenWrite := by
  intro s off run hs hl hlow hhigh hfits
  have hpos : 0 < s.fbLen := by omega
  have hstart := runStart_eq hpos off
  have hstart' := runStart_eq hpos (off - 1)
  have hnext : runStart s.fbLen off = runStart s.fbLen (off - 1) + 1 := by omega
  have hinside : runStart s.fbLen (off - 1) + 1 + run.length ≤ s.fbLen := by omega
  have hwrite := exec_fbwr_of_configured hs off run
  rw [hnext] at hwrite
  refine ⟨_, _, _, _, hwrite, exec_fbshl_of_configured ?written hpos, exec_fbshl_of_configured hs hpos,
    exec_fbwr_of_configured ?moved (off - 1) run, ?columns⟩
  case written | moved => exact hs
  case columns => exact column_congr rfl fun _ hi => get_down_setRun s.fb hinside hi

/-- Settles O25: the buffer lists no byte any more, and an unlisted column reads zero. -/
theorem fbclrZeroesEveryColumn : Obligations.FbclrZeroesEveryColumn := fun _ hs =>
  ⟨[], exec_fbclr_of_configured hs, fun i _ => get_nil i⟩

end Sys2Proof.Machine
end

section
/-! The display flush path (`44_display_flush.md`): the slices as columns of the framebuffer, the bus events of FLUSH, and
the pseudo-operations that broadcast. -/

namespace Sys2Proof.Machine

/-! ## Slices -/

theorem sliceToChipIndex_involutive {slice n : Nat} (h : slice < n) (reversed : Bool) :
    sliceToChipIndex (sliceToChipIndex slice n reversed) n reversed = slice := by
  cases reversed with
  | true => rfl
  | false =>
    change n - 1 - (n - 1 - slice) = slice
    exact Nat.sub_sub_self (Nat.le_sub_one_of_lt h)

/-- The columns that a slice sends, from the framebuffer (`44_display_flush.md` R152). -/
theorem sliceColumns_getD (s : State) (slice : Nat) (j : Fin 8) :
    (sliceColumns s slice).getD j 0 =
      columnByte (rotate (mat ((List.range 8).map fun k => s.fb.get (8 + 8 * slice + k))) s.rotation) j := by
  rw [sliceColumns, getD_cols _ j.isLt, List.range'_eq_map_range, List.map_map]
  rfl

/-! ## The bus events of FLUSH -/

theorem frame_unicastPairs (p : Params) (n : Nat) (cmd data : Byte) (idx : Nat) :
    frame (unicastPairs p n cmd data idx) =
      [.latch false] ++
        ((List.range n).flatMap fun t =>
          if t = idx then [.byte cmd, .byte (p.wire cmd data)] else [.byte p.cmdNoop, .byte 0x00]) ++
        [.latch true] := by
  rw [frame, unicastPairs, List.flatMap_map]
  congr 3
  funext t
  split <;> rfl

/-- The events of one slice: a transaction for each of its eight columns (`44_display_flush.md` R151). -/
theorem flatMap_frame_columnTransactions (p : Params) (n chip : Nat) (cs : List Byte) :
    (columnTransactions p n chip cs).flatMap frame =
      (List.finRange 8).flatMap fun j =>
        [.latch false] ++
          ((List.range n).flatMap fun t =>
            if t = chip then [.byte (p.colCmd j), .byte (~~~cs.getD j 0)] else [.byte p.cmdNoop, .byte 0x00]) ++
          [.latch true] := by
  rw [columnTransactions, List.flatMap_map]
  simp only [frame_unicastPairs, wire_colCmd]

/-- Everything FLUSH does to a block that is configured for at least one chip (`44_display_flush.md` R151, R153). -/
theorem exec_flush_of_configured {s : State} (hs : s.configured = true) (hn : 1 ≤ s.chipCount)
    (hl : 8 * s.chipCount + 8 ≤ s.fbLen) :
    ∃ (bus : List BusEvent) (chain : List Chip),
      exec .flush s =
        .next { s with
          latch := .high, trace := s.trace ++ bus, chain := chain
          response := some { status := .ok, result := none, bus := bus } } ∧
      chain.length = s.chain.length ∧
      bus = (List.range s.chipCount).flatMap fun slice =>
        (columnTransactions s.params s.chipCount (sliceToChipIndex slice s.chipCount s.reversed)
          (sliceColumns s slice)).flatMap frame := by
  obtain ⟨chain, hflush, hlen, -⟩ := flushSlices_ok (s := s) (slice := 0) (count := s.chipCount) (by omega) (by omega)
  rw [if_neg (by omega), ← List.range_eq_range', List.flatMap_assoc] at hflush
  refine ⟨_, chain, ?_, hlen, rfl⟩
  simp only [exec, execFlush, whenConfigured_true _ hs, hflush]
  rw [finish_next _ rfl]

/-! ## Broadcasts one after another -/

theorem runAll_cons_of_next {i : Instr} {s t : State} (h : exec i s = .next t) (is : List Instr) :
    runAll (i :: is) s = runAll is t := by
  rw [runAll, h]

/-- Columns of a matrix broadcast in the order of a list: under premise P1 every chip shows the columns of the list, and
the framebuffer is not touched (`44_display_flush.md` R155). -/
theorem runAll_broadcastColumns {s : State} (hp : s.params.Legal) (hs : s.configured = true) (hm : s.ChainMatches)
    (m : Matrix8x8) (js : List (Fin 8)) :
    ∃ t, runAll (js.map fun j => .bcast (s.params.colCmd j) (columnByte m j)) s = .next t ∧
      (∀ i < s.chipCount, ∀ j : Fin 8, t.chipReg i (s.params.colCmd j) =
        if j ∈ js then some (~~~columnByte m j) else s.chipReg i (s.params.colCmd j)) ∧
      t.fb = s.fb ∧ t.fbLen = s.fbLen := by
  induction js generalizing s with
  | nil => exact ⟨s, rfl, by simp, rfl, rfl⟩
  | cons k js ih =>
    obtain ⟨u, hu, hreg⟩ := exec_bcast_chipReg hs (s.params.colCmd k) (columnByte m k) hm
    have he := exec_effect hu
    have hparams := he.params_eq
    obtain ⟨hconf, hcount, -, -, hfbLen⟩ := he.configuration_eq (by simp)
    have hfb := he.fb_eq (by simp) (by simp) (by simp) (by simp)
    have hm' : u.ChainMatches := he.chain_length_eq.trans (hm.trans hcount.symm)
    obtain ⟨t, ht, hcol, hfb', hfbLen'⟩ := ih (hparams ▸ hp) (hconf.trans hs) hm'
    rw [hparams, hcount] at hcol
    rw [hparams] at ht
    refine ⟨t, (runAll_cons_of_next hu _).trans ht, fun i hi j => ?_, hfb'.trans hfb, hfbLen'.trans hfbLen⟩
    rw [hcol i hi j, hreg]
    by_cases hjk : j = k
    · subst hjk
      simp [colCmd_ne_noop hp, hi, wire_colCmd]
    · simp [colCmd_eq_iff hp, hjk]

/-! ## The obligations -/

/-- Settles O31: slice by slice the transactions of `exec_flush_of_configured`, their columns read from the
framebuffer. -/
theorem flushSendsTheRotatedWindow : Obligations.FlushSendsTheRotatedWindow := by
  intro s hs hn hl
  obtain ⟨bus, chain, hexec, hlen, hbus⟩ := exec_flush_of_configured hs hn hl
  refine ⟨bus, chain, hexec, hlen, hbus.trans ?_⟩
  simp only [flatMap_frame_columnTransactions, sliceColumns_getD]
  rfl

/-- Settles O32, from the registers after FLUSH (`exec_flush_chipReg`), their columns read from the framebuffer. -/
theorem flushFillsTheColumnRegisters : Obligations.FlushFillsTheColumnRegisters := by
  intro s hp hs hm hl
  obtain ⟨t, ht, hcol, hother⟩ := exec_flush_chipReg hp hs hm hl
  exact ⟨t, ht, fun slice hslice j => by rw [hcol slice hslice j, sliceColumns_getD], hother⟩

/-- Settles O49: the eight broadcasts of DISPM.ALL name every column. -/
theorem displayPatternReachesEveryChip : Obligations.DisplayPatternReachesEveryChip := by
  intro s m hp hs hm
  obtain ⟨t, ht, hcol, hfb, hfbLen⟩ := runAll_broadcastColumns hp hs hm m (List.finRange 8)
  exact ⟨t, ht, fun i hi j => by rw [hcol i hi j, if_pos (List.mem_finRange j)], hfb, hfbLen⟩

/-- Settles O53: BRIGHT.ALL is one BCAST, and the wire leaves the data of a command that is no column command. -/
theorem brightSetsTheIntensityRegister : Obligations.BrightSetsTheIntensityRegister := by
  intro s level hs hm hcol hnoop
  have hwire : s.params.wire s.params.cmdIntensity (BitVec.ofNat 8 level) = BitVec.ofNat 8 level := by
    simp [Params.wire, hcol]
  obtain ⟨t, ht, hset, hkept⟩ :=
    broadcastReachesEveryChip s s.params.cmdIntensity (BitVec.ofNat 8 level) hs hm hnoop
  rw [hwire] at hset
  exact ⟨t, runAll_cons_of_next ht [], hset, hkept⟩

/-- Settles O34, by the two polarities of `reversed`. -/
theorem sliceMappingIsAnInvolution : Obligations.SliceMappingIsAnInvolution :=
  fun _ _ reversed h => ⟨sliceToChipIndex_lt h reversed, sliceToChipIndex_involutive h reversed, rfl, rfl⟩

end Sys2Proof.Machine
end

section
/-! The host sequences (`45_host_sequences.md`): the layout of a text, the operations of a scroll, and the columns that a
scroll leaves dark. -/

namespace Sys2Proof.Machine

/-! ## Layout -/

theorem layoutText_of_unmatched {lookup : Char → Option Glyph} {text : List Char} (h : ∀ ch ∈ text, lookup ch = none) :
    layoutText lookup text = .error .allGlyphsUnmatched := by
  rw [layoutText, List.filterMap_eq_nil_iff.2 h]

/-- One character with a glyph is enough for the layout to succeed. -/
theorem layoutText_of_matched {lookup : Char → Option Glyph} {text : List Char} (h : ∃ ch ∈ text, lookup ch ≠ none) :
    layoutText lookup text = .ok (layoutGlyphs (text.filterMap lookup)) := by
  obtain ⟨ch, hch, hglyph⟩ := h
  rw [layoutText]
  split
  next hnone => exact absurd (List.filterMap_eq_nil_iff.1 hnone ch hch) hglyph
  next hsome => rw [hsome]

theorem totalAdvance_cons (g : Glyph) (gs : List Glyph) : totalAdvance (g :: gs) = g.length + totalAdvance gs :=
  List.sum_cons

/-! ## The operations of a scroll -/

@[simp] theorem operationsOf_nil : operationsOf [] = [] := rfl

@[simp] theorem operationsOf_op_cons (i : Instr) (actions : List HostAction) :
    operationsOf (.op i :: actions) = i :: operationsOf actions := rfl

@[simp] theorem operationsOf_delay_cons (ms : Nat) (actions : List HostAction) :
    operationsOf (.delay ms :: actions) = operationsOf actions := rfl

@[simp] theorem operationsOf_append (as bs : List HostAction) :
    operationsOf (as ++ bs) = operationsOf as ++ operationsOf bs := List.filterMap_append

/-- What the block sees of a scroll is its steps: the final delay is no operation (`45_host_sequences.md` R172). -/
theorem operationsOf_scrollText {n stepMs endMs : Nat} {glyphs : List Glyph} {actions : List HostAction}
    (h : scrollText n glyphs stepMs endMs = .ok actions) :
    operationsOf actions = operationsOf (scrollSteps n stepMs (totalAdvance glyphs + 8 * n) glyphs 0) := by
  cases glyphs with
  | nil => cases h
  | cons g gs =>
    cases h
    simp

/-- A step has one FBSHL and one FLUSH, whether or not it writes a glyph. -/
theorem count_scrollSteps {i : Instr} (hi : i = .fbshl ∨ i = .flush) (n stepMs k : Nat) (glyphs : List Glyph)
    (countdown : Nat) : (operationsOf (scrollSteps n stepMs k glyphs countdown)).count i = k := by
  fun_induction scrollSteps n stepMs k glyphs countdown with
  | case1 => rfl
  | case2 k g gs ih | case3 k gs countdown hwait ih => rcases hi with rfl | rfl <;> simpa using ih

/-! ## The columns of a scroll -/

/-- The block with `k` steps of a scroll to go: every column that those steps do not move below the window is zero
(`43_framebuffer.md` R135 item 3). -/
structure State.Scrolling (n len k : Nat) (s : State) : Prop where
  configured : s.configured = true
  chipCount : s.chipCount = n
  fbLen : s.fbLen = len
  dark : ∀ i, k + 8 ≤ i → i < len → s.fb.get i = 0x00

/-- A glyph written at the right margin is dark after as many steps as it and the window have columns. -/
theorem State.Scrolling.write {s : State} {n len k : Nat} (h : s.Scrolling n len k) {g : Glyph}
    (hk : g.length + 8 * n ≤ k) : ∃ t, exec (.fbwr (8 * n : Nat) g.columns) s = .next t ∧ t.Scrolling n len k := by
  have hcolumns : g.columns.length = g.length := rfl
  obtain ⟨hs, hn, hl, hdark⟩ := h
  refine ⟨_, exec_fbwr_of_configured hs _ g.columns, hs, hn, hl, fun i hi hlt => ?_⟩
  have hstart := runStart_eq (fbLen := s.fbLen) (by omega) (8 * n : Nat)
  rw [get_setRun_of_outside s.fb (by omega)]
  exact hdark i hi hlt

/-- The end of a step brings every column one index nearer to the left margin (`43_framebuffer.md` R133). -/
theorem State.Scrolling.shiftAndFlush {s : State} {n len k : Nat} (h : s.Scrolling n len (k + 1))
    (hwindow : 8 * n + 8 ≤ len) :
    ∃ t, (∀ is, runAll (.fbshl :: .flush :: is) s = runAll is t) ∧ t.Scrolling n len k := by
  obtain ⟨hs, rfl, rfl, hdark⟩ := h
  obtain ⟨u, hu, huConf, huCount, huLen, huGet⟩ := exec_fbshl_next hs (by omega)
  obtain ⟨t, ht, htConf, htCount, htLen, htFb⟩ :=
    exec_flush_next (huConf.trans hs) (by rw [huCount, huLen]; exact hwindow)
  refine ⟨t, fun is => by rw [runAll_cons_of_next hu, runAll_cons_of_next ht], htConf.trans (huConf.trans hs),
    htCount.trans huCount, htLen.trans huLen, fun i hi hlt => ?_⟩
  rw [htFb, huGet i hlt]
  split
  next hnext => exact hdark (i + 1) (by omega) hnext
  next => rfl

/-- While a glyph is left, the steps to go last for the columns still awaited, those of the glyphs left, and the window;
an empty glyph would be counted one step short. -/
theorem runAll_scrollSteps {s : State} {n len k : Nat} (stepMs : Nat) {glyphs : List Glyph} {countdown : Nat}
    (h : s.Scrolling n len k) (hwindow : 8 * n + 8 ≤ len) (hwidth : ∀ g ∈ glyphs, 1 ≤ g.length)
    (hsteps : glyphs ≠ [] → countdown + totalAdvance glyphs + 8 * n ≤ k) :
    ∃ t, runAll (operationsOf (scrollSteps n stepMs k glyphs countdown)) s = .next t ∧ t.Scrolling n len 0 := by
  fun_induction scrollSteps n stepMs k glyphs countdown generalizing s with
  | case1 => exact ⟨s, rfl, h⟩
  | case2 k g gs ih =>
    obtain ⟨hg, hgs⟩ := List.forall_mem_cons.1 hwidth
    have hfits := hsteps (List.cons_ne_nil g gs)
    rw [totalAdvance_cons] at hfits
    obtain ⟨u, hu, hu'⟩ := h.write (g := g) (by omega)
    obtain ⟨v, hv, hv'⟩ := hu'.shiftAndFlush hwindow
    obtain ⟨t, ht, hdark⟩ := ih hv' hgs (by omega)
    exact ⟨t, (runAll_cons_of_next hu _).trans ((hv _).trans ht), hdark⟩
  | case3 k gs countdown hwait ih =>
    obtain ⟨v, hv, hv'⟩ := h.shiftAndFlush hwindow
    obtain ⟨t, ht, hdark⟩ := ih hv' hwidth fun hne => by
      have hpos : countdown ≠ 0 := by
        obtain ⟨g, gs', rfl⟩ := List.exists_cons_of_ne_nil hne
        exact fun h0 => hwait g gs' rfl h0
      have := hsteps hne
      omega
    exact ⟨t, (hv _).trans ht, hdark⟩

/-! ## The obligations -/

/-- Settles O50: a scroll has `totalAdvance + 8n` steps, and each counts once (`count_scrollSteps`). -/
theorem scrollStepCount : Obligations.ScrollStepCount := by
  intro n glyphs stepMs endMs actions h
  rw [operationsOf_scrollText h]
  exact ⟨count_scrollSteps (.inl rfl) .., count_scrollSteps (.inr rfl) ..⟩

/-- Settles O51: the columns zero before the scroll are those that its steps leave above the window, and with no step to
go these are the whole window. -/
theorem scrollLeavesTheWindowDark : Obligations.ScrollLeavesTheWindowDark := by
  intro s glyphs stepMs endMs actions hs hl hwidth hdark h
  have hstart : s.Scrolling s.chipCount s.fbLen (totalAdvance glyphs + 8 * s.chipCount) :=
    ⟨hs, rfl, rfl, fun i hi => hdark i (by omega)⟩
  obtain ⟨t, ht, hend⟩ := runAll_scrollSteps stepMs (countdown := 0) hstart (by omega) (fun g hg => (hwidth g hg).1)
    fun _ => by omega
  refine ⟨t, by rw [operationsOf_scrollText h, ht], hend.fbLen, hend.chipCount, fun j hj => ?_⟩
  have hlt : 8 + j < s.fbLen := by omega
  rw [column_of_lt (hend.fbLen ▸ hlt), hend.dark (8 + j) (by omega) hlt]

/-- Settles O52, by whether a character has a glyph. -/
theorem layoutSkipsUnmatchedCharacters : Obligations.LayoutSkipsUnmatchedCharacters := fun _ _ =>
  ⟨layoutText_of_unmatched, fun h =>
    ⟨_, layoutText_of_matched h, List.map_filterMap_some_eq_filter_map_isSome, rfl, rfl⟩⟩

end Sys2Proof.Machine
end

section
/-! How operations end (`60_exceptions.md`): that every operation answers, that a status other than OK leaves no trace,
and that no operation looks at the response kept in the state. -/

namespace Sys2Proof.Machine

/-! ## The kept response has no influence -/

section
variable (s : State) (before : Option Response)

theorem growTo_with_response (need : Nat) :
    ({ s with response := before } : State).growTo need = { s.growTo need with response := before } := by
  unfold State.growTo
  split <;> rfl

/-- Ending an operation writes the response over whatever stood there. -/
theorem finish_with_response (start : State) (result : Option OpResult) :
    ({ s with response := before } : State).finish { start with response := before } result =
      s.finish start result := rfl

variable {s before} in
/-- A check of `configured` does not look at the kept response either. -/
theorem whenConfigured_with_response {run : State → Result} (h : run { s with response := before } = run s) :
    ({ s with response := before } : State).whenConfigured run = s.whenConfigured run := by
  unfold State.whenConfigured
  rw [h]
  rfl

/-- The response is written at the end of every operation and read by none (`10_state.md` R30). -/
theorem exec_command_with_response {i : Instr} (hi : isCommand i = true) :
    exec i { s with response := before } = exec i s := by
  cases i with
  | configure n rot rev =>
    have hgrow := growTo_with_response
      { s with chipCount := n, rotation := rot, reversed := rev, configured := true } before ((n + 2) * 8)
    simp only [exec, execConfigure]
    split
    · rfl
    · rw [hgrow]
      rfl
  | bcast cmd data =>
    simp only [exec, execBcast]
    refine whenConfigured_with_response ?_
    rw [transaction_response, finish_with_response]
  | ucast cmd data idx =>
    simp only [exec, execUcast]
    refine whenConfigured_with_response ?_
    rw [unicast_response, finish_with_response]
  | fbclr | fbwr | fbshl =>
    simp only [exec, execFbclr, execFbwr, execFbshl]
    exact whenConfigured_with_response rfl
  | fbrdw =>
    simp only [exec, execFbrdw]
    refine whenConfigured_with_response ?_
    simp only [State.readWindow, readColumns_response]
    rfl
  | flush =>
    simp only [exec, execFlush]
    refine whenConfigured_with_response ?_
    simp only [flushSlices_response]
    cases s.flushSlices 0 s.chipCount with
    | error f => rfl
    | ok t => exact finish_with_response t before s none
  | mflip m axis => cases axis <;> rfl
  | mrot | mshift | minv | reserved0000 | reserved1101 | reserved1110 | reserved1111 => rfl
  | wireNoop | wireCol0 | wireCol1 | wireCol2 | wireCol3 | wireCol4 | wireCol5 | wireCol6 | wireCol7 | wireOther =>
    cases hi

end

/-! ## A status other than OK -/

/-- Every kind of effect that changes more than the response has status OK. -/
theorem Effect.eq_of_status_ne_ok {i : Instr} {s t : State} {r : Response} (h : Effect i s t)
    (hi : isCommand i = true) (hr : t.response = some r) (hne : r.status ≠ .ok) :
    t = { s with response := some { status := r.status, result := none, bus := [] } } := by
  cases h with
  | answer r' _ hbus hresult =>
    cases hr
    rw [← hbus, ← hresult.resolve_left hne]
  | configure | columns | bus =>
    cases hr
    exact absurd rfl hne
  | chips _ hw => exact absurd hi (by simp [hw])

/-! ## The obligations -/

/-- Settles O37: a status other than OK belongs to an effect that writes the response only (`Effect.eq_of_status_ne_ok`),
and the response found is never read (`exec_command_with_response`). -/
theorem nonOkStatusHasNoEffect : Obligations.NonOkStatusHasNoEffect :=
  ⟨fun _ _ _ _ hi h => (exec_effect h).eq_of_status_ne_ok hi, fun _ s before hi => exec_command_with_response s before hi⟩

/-- Settles O38: under the invariant an operation reaches a next state, and every next state of an operation carries a
response (`responseCarriesTheNewEvents`). -/
theorem everyOperationCompletes : Obligations.EveryOperationCompletes := by
  intro i s hs hi
  obtain ⟨t, ht⟩ := exec_command_completes hs hi
  obtain ⟨r, hr, -⟩ := responseCarriesTheNewEvents i s t hi ht
  exact ⟨t, r, ht, hr⟩

/-- Settles O35: each of the seven begins with the check of `configured`. -/
theorem unconfiguredOperationsAreRefused : Obligations.UnconfiguredOperationsAreRefused := by
  intro s cmd data idx off run hs i hi
  simp only [List.mem_cons, List.not_mem_nil, or_false] at hi
  rcases hi with rfl | rfl | rfl | rfl | rfl | rfl | rfl <;>
    simp only [exec, execBcast, execUcast, execFbclr, execFbwr, execFbshl, execFbrdw, execFlush,
      whenConfigured_false _ hs, raise_next]

end Sys2Proof.Machine
end
